-- ==== Sys2Proof/Word.lean ====
section
/-! DEFINITION. Word types (00_scope.md R11): every datapath value is unsigned. The operators `+ & | ^ ~` of R12 are
`BitVec`'s own, all modulo 2^32 on a `Word`. -/

namespace Sys2Proof

/-- u8. -/
abbrev Byte := BitVec 8

/-- u32. -/
abbrev Word := BitVec 32

/-- A command word `CMD[39:0]` (30_encoding.md R70). -/
abbrev CmdWord := BitVec 40

/-- A response word `RSP[34:0]` (30_encoding.md R71). -/
abbrev RspWord := BitVec 35

/-- Five u32 words: the hash words `H[0..4]`, the digest register `DIG[0..4]`, or a digest on its way between them
(10_state.md R20, R27). -/
structure Words5 where
  w0 : Word
  w1 : Word
  w2 : Word
  w3 : Word
  w4 : Word
deriving DecidableEq, Repr

end Sys2Proof
end

