-- ==== Sys2Proof/Config.lean ====
section
/-! DEFINITION. What an implementation fixes and the spec leaves OPEN: the latencies of 70_reset_and_hazards.md R270
(00_scope.md R9, 92_eei_decisions.md D24), "each a positive number of clock edges". Each is 1 plus a constant without a body,
so nothing can be proved about its value but that it is positive (log entry 2). -/

namespace Sys2Proof.Config

opaque latNopMore : Nat
opaque latInitMore : Nat
opaque latFeedMore : Nat → Nat → Nat
opaque latPeekMore : Nat → Nat
opaque latFinalMore : Nat → Nat
opaque latReadMore : Nat
opaque latIllegalMore : Nat

/-- `LAT_NOP`. -/
def latNop : Nat := latNopMore + 1

/-- `LAT_INIT`. -/
def latInit : Nat := latInitMore + 1

/-- `LAT_FEED(n, c)`: `n` bytes, `c` compressions. -/
def latFeed (n c : Nat) : Nat := latFeedMore n c + 1

/-- `LAT_PEEK(c)`. -/
def latPeek (c : Nat) : Nat := latPeekMore c + 1

/-- `LAT_FINAL(c)`. -/
def latFinal (c : Nat) : Nat := latFinalMore c + 1

/-- `LAT_READ`, for RDDIG, RDLEN and RDSTAT. -/
def latRead : Nat := latReadMore + 1

/-- The latency of a word that decodes to ILLEGAL. DESIGN CHOICE (log entry 2): the spec names none, so it is a free
positive number like the others. -/
def latIllegal : Nat := latIllegalMore + 1

end Sys2Proof.Config
end

