-- ==== Sys2Proof/Syntax.lean ====
section
/-! DEFINITION. The command set (30_encoding.md R73, R74): one constructor for each row of spec/opcode_table.json. -/

namespace Sys2Proof

/-- A decoded command, with the operands 30_encoding.md R74 gives it. ARG operands keep their 4 bits; `WellFormed` says which
values are legal. DATA is an operand of FEED only: "ignored by every other command" (R70). -/
inductive Instr where
  | nop
  | init
  /-- `n = ARG` is the byte count, `data = DATA` holds the bytes from DATA[31:24] down (R76). -/
  | feed (n : BitVec 4) (data : Word)
  | peek
  | final
  /-- `i = ARG` is the digest word index. -/
  | rddig (i : BitVec 4)
  /-- `h = ARG` selects LL (0) or LH (1). -/
  | rdlen (h : BitVec 4)
  | rdstat
  /-- Every word that is no command (R75). It keeps nothing of the word: "No failure records ... the offending command word"
  (60_exceptions.md R232). -/
  | illegal
deriving DecidableEq, Repr

end Sys2Proof
end

