-- ==== Sys2Proof/WellFormed.lean ====
section
/-! DEFINITION. Which operands the opcode map admits (30_encoding.md R73, column "legal ARG"; R79). -/

namespace Sys2Proof

/-- The operands are in the legal ranges of 30_encoding.md R73: FEED 0..4, RDDIG 0..4, RDLEN 0..1. -/
def Instr.WellFormed : Instr → Bool
  | .nop => true
  | .init => true
  | .feed n _ => decide (n.toNat ≤ 4)
  | .peek => true
  | .final => true
  | .rddig i => decide (i.toNat ≤ 4)
  | .rdlen h => decide (h.toNat ≤ 1)
  | .rdstat => true
  | .illegal => true

end Sys2Proof
end

