-- ==== Sys2Proof/Decode.lean ====
section
/-! DEFINITION. Decode (30_encoding.md R70, R74, R75), the encoder (R70, R73, R79) and the assembler's view of a command
(R79, R80). Decode is total on all 2^40 words: a word that is no command decodes to ILLEGAL, by name. -/

namespace Sys2Proof

/-- OP, bits 39:36 (R70). -/
def opField (w : CmdWord) : BitVec 4 := w.extractLsb' 36 4

/-- ARG, bits 35:32 (R70). -/
def argField (w : CmdWord) : BitVec 4 := w.extractLsb' 32 4

/-- DATA, bits 31:0 (R70). -/
def dataField (w : CmdWord) : Word := w.extractLsb' 0 32

/-- The command an opcode, an argument and a data field stand for: R74, line for line. -/
def decodeFields (op arg : BitVec 4) (data : Word) : Instr :=
  match op.toNat with
  | 0 => if arg.toNat = 0 then .nop else .illegal
  | 1 => if arg.toNat = 0 then .init else .illegal
  | 2 => if arg.toNat ≤ 4 then .feed arg data else .illegal
  | 3 => if arg.toNat = 0 then .peek else .illegal
  | 4 => if arg.toNat = 0 then .final else .illegal
  | 5 => if arg.toNat ≤ 4 then .rddig arg else .illegal
  | 6 => if arg.toNat ≤ 1 then .rdlen arg else .illegal
  | 7 => if arg.toNat = 0 then .rdstat else .illegal
  | _ => .illegal

/-- R74. It reads the word alone: "Decode happens before any state is read". -/
def decode (w : CmdWord) : Instr := decodeFields (opField w) (argField w) (dataField w)

/-- Why a bit string is no command word at all: "every command is exactly one 40-bit word" (R78). -/
inductive DecodeError where
  /-- More than 40 bits were given. -/
  | longerThanAWord
  /-- The number has bits above the width it was given with. -/
  | bitsAboveTheWidth
deriving DecidableEq, Repr

/-- Decode `nbits` bits given as a number, bit 0 = CMD[0]; missing high bits are 0. -/
def decodeBits (nbits w : Nat) : Except DecodeError Instr :=
  if 40 < nbits then .error .longerThanAWord
  else if 2 ^ nbits ≤ w then .error .bitsAboveTheWidth
  else .ok (decode (BitVec.ofNat 40 w))

/-- The instruction the decoder reads from a word numbered as spec/opcode_table.json numbers it (one 40-bit word, bit 0
least significant). -/
def decodeTableWord (nbits w : Nat) : Option Instr :=
  match decodeBits nbits w with
  | .ok i => some i
  | .error _ => none

/-- The opcode of each command (R73). ILLEGAL has eight whole opcodes; 0x8 is the first of R81's examples. -/
def Instr.opcode : Instr → BitVec 4
  | .nop => 0x0
  | .init => 0x1
  | .feed _ _ => 0x2
  | .peek => 0x3
  | .final => 0x4
  | .rddig _ => 0x5
  | .rdlen _ => 0x6
  | .rdstat => 0x7
  | .illegal => 0x8

/-- The ARG field of each command (R73). -/
def Instr.arg : Instr → BitVec 4
  | .nop => 0
  | .init => 0
  | .feed n _ => n
  | .peek => 0
  | .final => 0
  | .rddig i => i
  | .rdlen h => h
  | .rdstat => 0
  | .illegal => 0

/-- The DATA field of each command; "The assembler writes ignored DATA bits as 0" (R79). -/
def Instr.dataBits : Instr → Word
  | .nop => 0
  | .init => 0
  | .feed _ data => data
  | .peek => 0
  | .final => 0
  | .rddig _ => 0
  | .rdlen _ => 0
  | .rdstat => 0
  | .illegal => 0

/-- OP, ARG and DATA side by side, OP in the high bits (R70). -/
def packFields (op arg : BitVec 4) (data : Word) : CmdWord := op ++ arg ++ data

/-- The word of a command, in the single format of R70. -/
def encode (i : Instr) : CmdWord := packFields i.opcode i.arg i.dataBits

end Sys2Proof
end

