-- ==== Sys2Proof/Machine/Constants.lean ====
section
/-! DEFINITION. The constants of the algorithm: the initial hash value (40_init_nop.md R100) and the round constants
(43_compression.md R170). -/

namespace Sys2Proof.Machine

/-- `IV[0..4]` (R100). -/
def iv : Words5 := ⟨0x67452301, 0xEFCDAB89, 0x98BADCFE, 0x10325476, 0xC3D2E1F0⟩

/-- `K[g]`, one per group of 20 rounds (R170); the group of round t is `t div 20`, at most 3. -/
def roundConstant (g : Nat) : Word :=
  match g with
  | 0 => 0x5A827999
  | 1 => 0x6ED9EBA1
  | 2 => 0x8F1BBCDC
  | _ => 0xCA62C1D6

end Sys2Proof.Machine
end

