-- ==== Sys2Proof/Machine/State.lean ====
section
/-! DEFINITION. The state of the engine (10_state.md R20 to R36) and of its port (70_reset_and_hazards.md R265), as plain
data, with the state after reset. -/

namespace Sys2Proof.Machine

/-- The engine stops with a fault: NEVER. "The model needs no fault outcome and no refusal for any command word"
(60_exceptions.md R242), so there is no constructor, and every failure is a response (R230). Nobody raises one. -/
inductive Fault where
deriving DecidableEq, Repr

/-- The step has no meaning. -/
inductive Refusal where
  /-- Raised by an arm of `exec` whose instruction has no meaning yet: no arm does. Safe. -/
  | notModelled (mnemonic : String)
  /-- Raised by the step when a command is offered before the first `rst` after power-on. "It has no meaning for commands sent
  before the first reset and refuses them" (70_reset_and_hazards.md R261; 93_implementation_defined.md U1). Safe: the model
  says nothing of an engine used without reset (92_eei_decisions.md D32). -/
  | commandBeforeReset
deriving DecidableEq, Repr

/-- The block buffer BUF (10_state.md R23), "the engine's only memory" (20_memory.md R50): the bytes that differ from the
reset contents, by byte index. `Memory.wf` (Machine/Ops.lean) is the one canonical form. -/
structure Memory where
  cells : List Host.Cell
deriving DecidableEq, Repr

/-- Status codes by name (30_encoding.md R72). -/
inductive Status where
  | success
  /-- "never produced by this hardware" (60_exceptions.md R233); named so that the other codes keep the source's values. -/
  | nullPointer
  | inputTooLong
  | stateError
  | illegalCmd
deriving DecidableEq, Repr

/-- A response: STATUS and RDATA (30_encoding.md R71). -/
structure Response where
  status : Status
  rdata : Word
deriving DecidableEq, Repr

/-- The port state machine with the command and response registers (70_reset_and_hazards.md R265; 10_state.md R35). A register
stands where it has a value: the command while it is in EXEC, the response while it is offered in RESP. -/
inductive Port where
  /-- Power-on, before the first `rst` (R261): everything else in the state is then unspecified. -/
  | powerUp
  | idle
  /-- EXEC with the accepted word; `more` edges of EXEC come before its last one (R270, log entry 2). -/
  | exec (cmd : CmdWord) (more : Nat)
  | resp (rsp : Response)
deriving DecidableEq, Repr

/-- What the host drives at one rising clock edge (70_reset_and_hazards.md R265, the signals of direction "in"). -/
structure Pins where
  rst : Bool
  cmdValid : Bool
  cmdWord : CmdWord
  rspReady : Bool
deriving DecidableEq, Repr

/-- The whole state: the persistent elements of 10_state.md R36 under the spec's names, the port, and the pins the host will
drive at the coming edges (first edge first; the model's own field, log entry 1). -/
@[ext]
structure State where
  /-- Hash words `H[0..4]` (R20). -/
  h : Words5
  /-- `LH`, bits 63..32 of LEN (R21). -/
  lh : Word
  /-- `LL`, bits 31..0 of LEN (R21). -/
  ll : Word
  /-- `BUF[0..63]` (R23). -/
  buf : Memory
  /-- `IDX`, 0..63 between commands (R25). -/
  idx : Fin 64
  /-- `FIN` (R26). -/
  fin : Bool
  /-- `COR` (R26). -/
  cor : Bool
  /-- Digest register `DIG[0..4]` (R27). -/
  dig : Words5
  /-- The port handshake (R35). -/
  port : Port
  /-- The host's coming pin values. -/
  inputs : List Pins
deriving DecidableEq, Repr

/-- The state after `rst` (10_state.md R36, 70_reset_and_hazards.md R260): the port in IDLE, no response pending. The host
drives nothing yet (log entry 1). -/
def State.reset : State where
  h := iv
  lh := 0
  ll := 0
  buf := ⟨[]⟩
  idx := 0
  fin := false
  cor := false
  dig := ⟨0, 0, 0, 0, 0⟩
  port := .idle
  inputs := []

end Sys2Proof.Machine
end

