-- ==== Sys2Proof/Machine/Ops.lean ====
section
/-! DEFINITION. The named operations every meaning is written with: byte order (00_scope.md R10, R13), the block buffer
(20_memory.md R50), and the two ways a command ends, `respond` and `raise` (00_scope.md R13). -/

namespace Sys2Proof.Machine

/-- `be32(b0, b1, b2, b3)` (00_scope.md R13): the big-endian read of 4 bytes. -/
def be32 (b0 b1 b2 b3 : Byte) : Word :=
  (b0.setWidth 32 <<< 24) ||| (b1.setWidth 32 <<< 16) ||| (b2.setWidth 32 <<< 8) ||| b3.setWidth 32

/-- Byte `j` of a word, most significant first: `w[31 − 8j : 24 − 8j]` (00_scope.md R10). -/
def byteOf (w : Word) (j : Nat) : Byte := w.extractLsb' (24 - 8 * j) 8

/-- `bytes_be32(w)` (00_scope.md R13). -/
def bytesBe32 (w : Word) : List Byte := [byteOf w 0, byteOf w 1, byteOf w 2, byteOf w 3]

/-- What a byte of BUF reads as that is not listed: the reset contents, "all 64 bytes 0" (10_state.md R23). -/
def Memory.unlisted : Byte := 0

/-- BUF with all 64 bytes 0. -/
def Memory.allZero : Memory := ⟨[]⟩

/-- The value listed at address `a`, or what an unlisted address reads as. -/
def lookupCell (a : Nat) : List Host.Cell → Byte
  | [] => Memory.unlisted
  | c :: cs => if c.1 = a then c.2 else lookupCell a cs

/-- The list without the address `a`. -/
def eraseCell (a : Nat) : List Host.Cell → List Host.Cell
  | [] => []
  | c :: cs => if c.1 = a then eraseCell a cs else c :: eraseCell a cs

/-- The list with `(a, b)` put before the first higher address. -/
def insertCell (a : Nat) (b : Byte) : List Host.Cell → List Host.Cell
  | [] => [(a, b)]
  | c :: cs => if c.1 < a then c :: insertCell a b cs else (a, b) :: c :: cs

/-- Addresses strictly rising from `lo`, below 64, and no entry equal to what an unlisted address reads as. -/
def canonicalFrom : Nat → List Host.Cell → Bool
  | _, [] => true
  | lo, c :: cs => decide (lo ≤ c.1) && decide (c.1 < 64) && decide (c.2 ≠ Memory.unlisted) && canonicalFrom (c.1 + 1) cs

/-- The one canonical form of BUF: every address is one of the 64 that exist (20_memory.md R50). -/
def Memory.wf (m : Memory) : Bool := canonicalFrom 0 m.cells

/-- `MemRead(a, 1)` (00_scope.md R13). -/
def Memory.read (m : Memory) (a : Nat) : Byte := lookupCell a m.cells

/-- `MemWrite(a, 1, b)` (00_scope.md R13). Writing the value an unlisted address reads as removes the entry. -/
def Memory.write (m : Memory) (a : Nat) (b : Byte) : Memory :=
  if b = Memory.unlisted then ⟨eraseCell a m.cells⟩ else ⟨insertCell a b (eraseCell a m.cells)⟩

/-- `MemWrite(a, n, v)`: consecutive bytes from `a` up. -/
def Memory.writeBytes (m : Memory) (a : Nat) : List Byte → Memory
  | [] => m
  | b :: bs => (m.write a b).writeBytes (a + 1) bs

/-- `for j in k .. last: p[j] <- 0`; no byte when `k > last`. -/
def Memory.zeroFill (m : Memory) (k last : Nat) : Memory := m.writeBytes k (List.replicate (last + 1 - k) 0)

/-- The big-endian 32-bit read of `BUF[a..a+3]`. -/
def Memory.readBe32 (m : Memory) (a : Nat) : Word :=
  be32 (m.read a) (m.read (a + 1)) (m.read (a + 2)) (m.read (a + 3))

/-- `respond(status, rdata)` (00_scope.md R13): the command ends and its response is offered, the port in RESP
(70_reset_and_hazards.md R265). -/
def State.respond (s : State) (status : Status) (rdata : Word) : State := { s with port := .resp ⟨status, rdata⟩ }

/-- `raise <Status>` (00_scope.md R13): the command ends at once, "The response carries status <Status> and rdata 0". This is
the engine's whole error entry: it "saves no state, changes no mode and transfers no control" (60_exceptions.md R236), and
there is no return from it (R237). -/
def State.raise (s : State) (status : Status) : State := s.respond status 0

/-- `for i in 0 .. 4: DIG[i] <- x[i]` (42_result_padding.md R143, R152). -/
def State.setDig (s : State) (x : Words5) : State := { s with dig := x }

end Sys2Proof.Machine
end

