-- ==== Sys2Proof/Machine/Compress.lean ====
section
/-! DEFINITION. The compression function (43_compression.md R170 to R182): a pure function of five hash words and one block.
Its working variables, schedule and round counter live only inside it (10_state.md R32, R33). -/

namespace Sys2Proof.Machine

/-- `rotl(a, n)` for 0 < n < 32 (00_scope.md R12). -/
def rotl (a : Word) (n : Nat) : Word := (a <<< n) ||| (a >>> (32 - n))

/-- Schedule words 0..15: big-endian reads of the block (43_compression.md R173, 20_memory.md R53). -/
def blockWords (blk : Memory) : List Word := (List.range 16).map fun i => blk.readBe32 (4 * i)

/-- The next schedule word from the words before it, newest first, so that position k holds `W[t-1-k]` (R173). -/
def nextScheduleWord (newestFirst : List Word) : Word :=
  rotl (newestFirst.getD 2 0 ^^^ newestFirst.getD 7 0 ^^^ newestFirst.getD 13 0 ^^^ newestFirst.getD 15 0) 1

/-- `n` more schedule words on a list that holds them newest first. -/
def extendSchedule : Nat → List Word → List Word
  | 0, ws => ws
  | n + 1, ws => extendSchedule n (nextScheduleWord ws :: ws)

/-- `W[0..79]` from `W[0..15]` (R173). -/
def schedule (first16 : List Word) : List Word := (extendSchedule 64 first16.reverse).reverse

/-- The working variables A..E (R175). -/
structure Working where
  a : Word
  b : Word
  c : Word
  d : Word
  e : Word
deriving DecidableEq, Repr

/-- The round function `f(t, B, C, D)` (R174). -/
def roundFunction (t : Nat) (b c d : Word) : Word :=
  if t < 20 then (b &&& c) ||| (~~~b &&& d)
  else if t < 40 then b ^^^ c ^^^ d
  else if t < 60 then (b &&& c) ||| (b &&& d) ||| (c &&& d)
  else b ^^^ c ^^^ d

/-- Round t with schedule word `w` (R176, R177): one parallel assignment from the values before the round. -/
def compressRound (t : Nat) (w : Word) (v : Working) : Working where
  a := rotl v.a 5 + roundFunction t v.b v.c v.d + v.e + w + roundConstant (t / 20)
  b := v.a
  c := rotl v.b 30
  d := v.c
  e := v.d

/-- The rounds from `t` on, one for each schedule word left, in order (R180). -/
def compressRounds : Nat → List Word → Working → Working
  | _, [], v => v
  | t, w :: ws, v => compressRounds (t + 1) ws (compressRound t w v)

/-- The compression of a block given as its 16 big-endian words (R171): load A..E from Hin (R175), 80 rounds, add the working
variables into Hin (R178). -/
def compressWords (hin : Words5) (first16 : List Word) : Words5 :=
  let v := compressRounds 0 (schedule first16) ⟨hin.w0, hin.w1, hin.w2, hin.w3, hin.w4⟩
  ⟨hin.w0 + v.a, hin.w1 + v.b, hin.w2 + v.c, hin.w3 + v.d, hin.w4 + v.e⟩

/-- `Compress(Hin, blk)` (R171). -/
def compress (hin : Words5) (blk : Memory) : Words5 := compressWords hin (blockWords blk)

end Sys2Proof.Machine
end

