-- ==== Sys2Proof/Machine/Flags.lean ====
section
/-! DEFINITION. The counter, its overflow flag, the status view and the state machine they make
(10_state.md R21, R26, R29, R30; 41_feed.md R125, R126). -/

namespace Sys2Proof.Machine

/-- LEN = LH ++ LL (10_state.md R21). -/
def State.len (s : State) : BitVec 64 := s.lh ++ s.ll

/-- LL after one more byte: `LL <- LL + 8 (mod 2^32)` (41_feed.md R125). -/
def nextLL (ll : Word) : Word := ll + 8

/-- LH after one more byte: it takes the carry exactly when LL wraps to zero (41_feed.md R125). -/
def nextLH (lh ll : Word) : Word := if nextLL ll = 0 then lh + 1 else lh

/-- `ovf`: the increment of LH wraps LH to zero (41_feed.md R126). -/
def overflows (lh ll : Word) : Bool := decide (nextLL ll = 0) && decide (lh + 1 = 0)

/-- A flag as a 32-bit number, `zext_32`. -/
def flagBit (b : Bool) : Word := if b then 1 else 0

/-- The status view (10_state.md R29, 44_readout.md R207): `zext_32(IDX) << 8 | zext_32(COR) << 1 | zext_32(FIN)`. -/
def State.statusView (s : State) : Word :=
  (BitVec.ofNat 32 s.idx.val <<< 8) ||| (flagBit s.cor <<< 1) ||| flagBit s.fin

/-- The four states of the source's state machine (10_state.md R30). -/
inductive Phase where
  | fresh
  | accumulating
  | finalized
  | corrupted
deriving DecidableEq, Repr

/-- "a function of the persistent state" (10_state.md R30). -/
def State.phase (s : State) : Phase :=
  if s.cor then .corrupted
  else if s.fin then .finalized
  else if s.len = 0 then .fresh
  else .accumulating

end Sys2Proof.Machine
end

