-- ==== Sys2Proof/Machine/Illegal.lean ====
section
/-! DEFINITION. ILLEGAL (30_encoding.md R75). -/

namespace Sys2Proof.Machine

/-- A word that is no command "changes no state and responds respond(ILLEGAL_CMD, 0)" (R75), whatever the engine's state. -/
def State.rejectWord (s : State) : State := s.raise .illegalCmd

/-- ILLEGAL (R75). -/
def execIllegal (s : State) : Host.Outcome State Fault Refusal := .next s.rejectWord

end Sys2Proof.Machine
end

