-- ==== Sys2Proof/Machine/Operands.lean ====
section
/-! DEFINITION. Operand assembly (30_encoding.md R76): the bytes of a FEED, the word RDDIG selects, the half RDLEN selects.
No command has a signed, scaled or shifted immediate, and none names a register. -/

namespace Sys2Proof.Machine

/-- The message bytes of FEED: byte j, for j < n, is `DATA[31 − 8j : 24 − 8j]`; bytes j ≥ n of DATA are ignored (R76). -/
def feedOperand (n : BitVec 4) (data : Word) : List Byte := (bytesBe32 data).take n.toNat

/-- The word with index 0..4 of five; `none` for any other index, which no decoded command has. -/
def wordAt (x : Words5) (i : Nat) : Option Word :=
  match i with
  | 0 => some x.w0
  | 1 => some x.w1
  | 2 => some x.w2
  | 3 => some x.w3
  | 4 => some x.w4
  | _ => none

/-- The half of LEN that RDLEN's operand selects: 0 is LL, 1 is LH; `none` for any other value, which no decoded command
has (R76, 44_readout.md R205). -/
def lenHalf (s : State) (h : BitVec 4) : Option Word :=
  match h.toNat with
  | 0 => some s.ll
  | 1 => some s.lh
  | _ => none

end Sys2Proof.Machine
end

