-- ==== Sys2Proof/Machine/Feed.lean ====
section
/-! DEFINITION. FEED (41_feed.md R120 to R129). -/

namespace Sys2Proof.Machine

/-- `BUF[IDX] <- b` (R124). -/
def State.storeByte (s : State) (b : Byte) : State := { s with buf := s.buf.write s.idx.val b }

/-- The bit count grows by 8, and COR is set when the count reaches 2^64 (R125, R126). -/
def State.countByte (s : State) : State :=
  { s with
    ll := nextLL s.ll
    lh := nextLH s.lh s.ll
    cor := s.cor || overflows s.lh s.ll }

/-- `IDX <- IDX + 1`, and when that is 64 the block is compressed and IDX is 0 again (R124, R127). The value 64 exists only
here, between the store and the compression (10_state.md R25). -/
def State.advance (s : State) : State :=
  if s.idx.val + 1 = 64 then { s with h := compress s.h s.buf, idx := 0 }
  else { s with idx := Fin.ofNat 64 (s.idx.val + 1) }

/-- One accepted byte: store, count, and compress a block that is full (R124, R125, R127). -/
def State.acceptByte (s : State) (b : Byte) : State := ((s.storeByte b).countByte).advance

/-- The byte loop of R120: after a byte that overflows LEN the rest is dropped and the command reports INPUT_TOO_LONG
(R126). -/
def feedBytes : List Byte → State → State × Status
  | [], s => (s, .success)
  | b :: bs, s =>
    if overflows s.lh s.ll then (s.acceptByte b, .inputTooLong)
    else feedBytes bs (s.acceptByte b)

/-- FEED with a legal count (R120), its checks in the order of 60_exceptions.md R235. -/
def feedLegal (n : BitVec 4) (data : Word) (s : State) : State :=
  if n.toNat = 0 then s.respond .success 0
  else if s.fin then s.raise .stateError
  else if s.cor then s.raise .inputTooLong
  else
    let r := feedBytes (feedOperand n data) s
    r.1.respond r.2 0

/-- FEED (R120). A count above 4 is no FEED: its word is ILLEGAL (30_encoding.md R75; log entry 6). -/
def execFeed (n : BitVec 4) (data : Word) (s : State) : Host.Outcome State Fault Refusal :=
  .next (if n.toNat ≤ 4 then feedLegal n data s else s.rejectWord)

end Sys2Proof.Machine
end

