-- ==== Sys2Proof/Machine/Readout.lean ====
section
/-! DEFINITION. The digest serializer and the read commands (44_readout.md). -/

namespace Sys2Proof.Machine

/-- The big-endian word serializer (R200): 20 digest bytes, byte 0 the most significant of word 0. -/
def serialize (x : Words5) : List Byte :=
  bytesBe32 x.w0 ++ bytesBe32 x.w1 ++ bytesBe32 x.w2 ++ bytesBe32 x.w3 ++ bytesBe32 x.w4

/-- A read that selects a word answers it with SUCCESS, in every state; an operand that selects none stands for no command
(30_encoding.md R75; log entry 6). -/
def State.answer (s : State) (x : Option Word) : State :=
  match x with
  | some v => s.respond .success v
  | none => s.rejectWord

/-- RDDIG (R203). -/
def execRddig (i : BitVec 4) (s : State) : Host.Outcome State Fault Refusal := .next (s.answer (wordAt s.dig i.toNat))

/-- RDLEN (R205). -/
def execRdlen (h : BitVec 4) (s : State) : Host.Outcome State Fault Refusal := .next (s.answer (lenHalf s h))

/-- RDSTAT (R207). -/
def execRdstat (s : State) : Host.Outcome State Fault Refusal := .next (s.respond .success s.statusView)

end Sys2Proof.Machine
end

