-- ==== Sys2Proof/Machine/Padding.lean ====
section
/-! DEFINITION. The padding procedure (42_result_padding.md R145 to R149). -/

namespace Sys2Proof.Machine

/-- Step 1: `p[idx] <- 0x80` (R146). -/
def padMark (buf : Memory) (idx : Nat) : Memory := buf.write idx 0x80

/-- Step 4: `p[56..59] <- bytes_be32(lh); p[60..63] <- bytes_be32(ll)` (20_memory.md R54). -/
def padLength (p : Memory) (lh ll : Word) : Memory :=
  (p.writeBytes 56 (bytesBe32 lh)).writeBytes 60 (bytesBe32 ll)

/-- The last padded block: zeros from `k` to 55, then the length (steps 3 and 4). -/
def padFinalBlock (p : Memory) (k : Nat) (lh ll : Word) : Memory := padLength (p.zeroFill k 55) lh ll

/-- `PadAndCompress(Hin, lh, ll, buf, idx)` (R145): the hash words after the last one or two compressions, and the final block.
The two-block path is taken exactly when `idx ≥ 56` (R147; 90_conflicts.md C1). -/
def padAndCompress (hin : Words5) (lh ll : Word) (buf : Memory) (idx : Nat) : Words5 × Memory :=
  if 56 ≤ idx then
    let h := compress hin ((padMark buf idx).zeroFill (idx + 1) 63)
    let p := padFinalBlock Memory.allZero 0 lh ll
    (compress h p, p)
  else
    let p := padFinalBlock (padMark buf idx) (idx + 1) lh ll
    (compress hin p, p)

end Sys2Proof.Machine
end

