-- ==== Sys2Proof/Machine/Result.lean ====
section
/-! DEFINITION. PEEK and FINAL (42_result_padding.md R140 to R154). -/

namespace Sys2Proof.Machine

/-- The private copy `S = {H, LH, LL, BUF, IDX, FIN}` that PEEK pads (10_state.md R34). It is gone when PEEK ends: not state
(93_implementation_defined.md U4). -/
structure Snapshot where
  h : Words5
  lh : Word
  ll : Word
  buf : Memory
  idx : Fin 64
  fin : Bool
deriving DecidableEq, Repr

/-- `S <- {H, LH, LL, BUF, IDX, FIN}` (R142). -/
def State.snapshot (s : State) : Snapshot := ⟨s.h, s.lh, s.ll, s.buf, s.idx, s.fin⟩

/-- The copy padded, compressed and finalized: "only the copy is finalized" (R140). -/
def Snapshot.finish (c : Snapshot) : Snapshot :=
  let r := padAndCompress c.h c.lh c.ll c.buf c.idx.val
  { c with h := r.1, buf := r.2, fin := true }

/-- PEEK (R140): it fails in a corrupted engine (R141), copies H when the engine is finalized (R143), and otherwise takes the
digest from a padded copy, the live state untouched (R142). -/
def peekState (s : State) : State :=
  if s.cor then s.raise .inputTooLong
  else if s.fin then (s.setDig s.h).respond .success 0
  else (s.setDig s.snapshot.finish.h).respond .success 0

/-- PEEK. -/
def execPeek (s : State) : Host.Outcome State Fault Refusal := .next (peekState s)

/-- H and BUF replaced by the padded and compressed ones, in place (R150, R152). -/
def State.padInPlace (s : State) : State :=
  let r := padAndCompress s.h s.lh s.ll s.buf s.idx.val
  { s with h := r.1, buf := r.2 }

/-- The erasure after an in-place padding (R153). -/
def State.eraseSession (s : State) : State := { s with buf := Memory.allZero, lh := 0, ll := 0, idx := 0 }

/-- The in-place finalization of an engine that is not finalized yet (R152, R153). -/
def State.finalize (s : State) : State := { s.padInPlace.eraseSession with fin := true }

/-- FINAL (R150): it fails in a corrupted engine, does not pad again in a finalized one (R151), and copies H to DIG. -/
def finalState (s : State) : State :=
  if s.cor then s.raise .inputTooLong
  else
    let t := if s.fin then s else s.finalize
    (t.setDig t.h).respond .success 0

/-- FINAL. -/
def execFinal (s : State) : Host.Outcome State Fault Refusal := .next (finalState s)

end Sys2Proof.Machine
end

