-- ==== Sys2Proof/Machine/Session.lean ====
section
/-! DEFINITION. INIT and NOP (40_init_nop.md). -/

namespace Sys2Proof.Machine

/-- Every persistent element to its initial value (40_init_nop.md R101; 10_state.md R36). -/
def State.clearSession (s : State) : State :=
  { s with
    h := iv
    lh := 0
    ll := 0
    buf := Memory.allZero
    idx := 0
    fin := false
    cor := false
    dig := ⟨0, 0, 0, 0, 0⟩ }

/-- INIT (R101): "always SUCCESS", in every state (R102). -/
def execInit (s : State) : Host.Outcome State Fault Refusal := .next (s.clearSession.respond .success 0)

/-- NOP (R105): it responds SUCCESS in every state and changes nothing. -/
def execNop (s : State) : Host.Outcome State Fault Refusal := .next (s.respond .success 0)

end Sys2Proof.Machine
end

