-- ==== Sys2Proof/Machine/Dispatch.lean ====
section
/-! DEFINITION. One arm per command. -/

namespace Sys2Proof.Machine

def exec (i : Instr) (s : State) : Host.Outcome State Fault Refusal :=
  match i with
  | .nop => Sys2Proof.Machine.execNop s
  | .init => Sys2Proof.Machine.execInit s
  | .feed n data => Sys2Proof.Machine.execFeed n data s
  | .peek => Sys2Proof.Machine.execPeek s
  | .final => Sys2Proof.Machine.execFinal s
  | .rddig k => Sys2Proof.Machine.execRddig k s
  | .rdlen h => Sys2Proof.Machine.execRdlen h s
  | .rdstat => Sys2Proof.Machine.execRdstat s
  | .illegal => Sys2Proof.Machine.execIllegal s

end Sys2Proof.Machine
end

