-- ==== Sys2Proof/Machine/Port.lean ====
section
/-! DEFINITION. The port (70_reset_and_hazards.md R260 to R272): one rising clock edge, the pins it drives, and the words that
cross it. -/

namespace Sys2Proof.Machine

/-- The status codes (30_encoding.md R72). -/
def Status.code : Status → BitVec 3
  | .success => 0
  | .nullPointer => 1
  | .inputTooLong => 2
  | .stateError => 3
  | .illegalCmd => 4

/-- The response word `RSP[34:0]`: STATUS in bits 34:32, RDATA in bits 31:0 (30_encoding.md R71). -/
def Response.word (r : Response) : RspWord := r.status.code ++ r.rdata

/-- The response a word stands for. Codes 1 and 5..7 are never produced: "If a response shows one, refuse"
(93_implementation_defined.md I4). -/
def Response.ofWord (w : RspWord) : Option Response :=
  let rdata : Word := w.extractLsb' 0 32
  match (w.extractLsb' 32 3 : BitVec 3).toNat with
  | 0 => some ⟨.success, rdata⟩
  | 2 => some ⟨.inputTooLong, rdata⟩
  | 3 => some ⟨.stateError, rdata⟩
  | 4 => some ⟨.illegalCmd, rdata⟩
  | _ => none

/-- An edge at which the host drives nothing. -/
def Pins.quiet : Pins := ⟨false, false, 0, false⟩

/-- `cmd_ready`: "1 only in IDLE", and 0 while rst = 1 (R265, R260). -/
def State.cmdReady (s : State) (p : Pins) : Bool := !p.rst && decide (s.port = .idle)

/-- The response offered in RESP. -/
def Port.offered : Port → Option Response
  | .powerUp => none
  | .idle => none
  | .exec _ _ => none
  | .resp r => some r

/-- `rsp_valid`: "1 only in RESP", and 0 while rst = 1 (R265, R260). -/
def State.rspValid (s : State) (p : Pins) : Bool := !p.rst && s.port.offered.isSome

/-- `rsp_word`: the response in RESP; the spec gives it no value elsewhere (log entry 5). -/
def State.rspWord (s : State) : Option RspWord := s.port.offered.map Response.word

/-- The pins at the coming edge: the first the host has in store, else quiet ones (log entry 1). -/
def State.nextPins (s : State) : Pins := s.inputs.headD Pins.quiet

/-- The state with the coming edge's pins taken off. -/
def State.takePins (s : State) : State := { s with inputs := s.inputs.tail }

/-- How many compressions a command will do (70_reset_and_hazards.md R272): a FEED at most one, when its bytes reach the end of
the block; PEEK and FINAL one or two (42_result_padding.md R149), none when they do not pad. -/
def State.compressions (s : State) : Instr → Nat
  | .nop => 0
  | .init => 0
  | .feed n _ => if s.fin || s.cor then 0 else if 64 ≤ s.idx.val + n.toNat then 1 else 0
  | .peek => if s.fin || s.cor then 0 else if 56 ≤ s.idx.val then 2 else 1
  | .final => if s.fin || s.cor then 0 else if 56 ≤ s.idx.val then 2 else 1
  | .rddig _ => 0
  | .rdlen _ => 0
  | .rdstat => 0
  | .illegal => 0

/-- The number of edges a command spends in EXEC, at least one (70_reset_and_hazards.md R270). -/
def State.latency (s : State) : Instr → Nat
  | .nop => Config.latNop
  | .init => Config.latInit
  | .feed n data => Config.latFeed n.toNat (s.compressions (.feed n data))
  | .peek => Config.latPeek (s.compressions .peek)
  | .final => Config.latFinal (s.compressions .final)
  | .rddig _ => Config.latRead
  | .rdlen _ => Config.latRead
  | .rdstat => Config.latRead
  | .illegal => Config.latIllegal

/-- IDLE accepts `cmd_word` and goes to EXEC (R265). -/
def State.accept (s : State) (w : CmdWord) : State := { s with port := .exec w (s.latency (decode w) - 1) }

/-- An edge with rst = 1 (R260): every persistent element to its reset value, the port to IDLE, a command in progress
abandoned. What the host will drive next is the host's. -/
def State.rstEdge (s : State) : State := { State.reset with inputs := s.inputs }

/-- One rising clock edge at which the host drives `p` (R265). The command's rule executes at the last edge of EXEC, as one
atomic step (R267). -/
def clockEdge (p : Pins) (s : State) : Host.Outcome State Fault Refusal :=
  if p.rst then .next s.rstEdge
  else
    match s.port with
    | .powerUp => if p.cmdValid then .refused .commandBeforeReset else .next s
    | .idle => .next (if p.cmdValid then s.accept p.cmdWord else s)
    | .exec w 0 => exec (decode w) s
    | .exec w (more + 1) => .next { s with port := .exec w more }
    | .resp _ => .next (if p.rspReady then { s with port := .idle } else s)

end Sys2Proof.Machine
end

