-- ==== Sys2Proof/Machine/Step.lean ====
section
/-! DEFINITION. One step is one rising clock edge (70_reset_and_hazards.md R265). -/

namespace Sys2Proof.Machine

/-- The next clock edge, with the pins the host drives at it. -/
def step (s : State) : Host.Outcome State Fault Refusal := clockEdge s.nextPins s.takePins

/-- `s` with the command word `w` (bits above `nbits` 0) accepted and in its last edge of EXEC, and no reset at the coming edge,
so that the very next step runs that command (log entry 3). -/
def State.withFetchWord (s : State) (nbits w : Nat) : State :=
  { s with port := .exec (BitVec.ofNat 40 (w % 2 ^ nbits)) 0, inputs := Pins.quiet :: s.inputs }

end Sys2Proof.Machine
end

