-- ==== Sys2Proof/Machine/Assembler.lean ====
section
/-! DEFINITION. The assembler (30_encoding.md R79 to R81): a line of text to the commands it stands for, with the operand checks
of R79 and the pseudo-instructions of R80. Spacing, upper case and blank lines are log entry 11. -/

namespace Sys2Proof.Machine

/-- One assembler line (R79, R80), its numbers as they are written. -/
inductive AsmLine where
  | nop
  | init
  | feed (n data : Nat)
  | peek
  | final
  | rddig (i : Nat)
  | rdlen (h : Nat)
  | rdstat
  | feedb (b : Nat)
  | feedw (w : Nat)
  | feeds (s : List Byte)
  | inputend
  | result
  | getbits
deriving DecidableEq, Repr

/-- FEED with the checks of R79: it rejects n > 4 and "a data value wider than 32 bits". -/
def assembleFeed (n data : Nat) : Option (List Instr) :=
  if n ≤ 4 ∧ data < 2 ^ 32 then some [.feed (BitVec.ofNat 4 n) (BitVec.ofNat 32 data)] else none

/-- FEEDS (R80): four bytes a FEED, then the last r bytes "from d[31:24] down and zero below". -/
def expandFeeds : List Byte → List Instr
  | b0 :: b1 :: b2 :: b3 :: rest => .feed 4 (be32 b0 b1 b2 b3) :: expandFeeds rest
  | [b0, b1, b2] => [.feed 3 (be32 b0 b1 b2 0)]
  | [b0, b1] => [.feed 2 (be32 b0 b1 0 0)]
  | [b0] => [.feed 1 (be32 b0 0 0 0)]
  | [] => []

/-- The commands a line stands for (R79, R80); `none` where the assembler rejects it. -/
def AsmLine.assemble : AsmLine → Option (List Instr)
  | .nop => some [.nop]
  | .init => some [.init]
  | .feed n data => assembleFeed n data
  | .peek => some [.peek]
  | .final => some [.final]
  | .rddig i => if i ≤ 4 then some [.rddig (BitVec.ofNat 4 i)] else none
  | .rdlen h => if h ≤ 1 then some [.rdlen (BitVec.ofNat 4 h)] else none
  | .rdstat => some [.rdstat]
  | .feedb b => assembleFeed 1 (b <<< 24)
  | .feedw w => assembleFeed 4 w
  | .feeds s => some (expandFeeds s)
  | .inputend => some [.nop]
  | .result => some [.peek, .rddig 0, .rddig 1, .rddig 2, .rddig 3, .rddig 4]
  | .getbits => some [.rdlen 0, .rdlen 1]

/-- The double quote of FEEDS. -/
def quoteChar : Char := Char.ofNat 34

/-- The line without its comment: `;` starts one (R79), unless it stands inside the quotes of FEEDS. -/
def stripComment : Bool → List Char → List Char
  | _, [] => []
  | inQuotes, c :: cs =>
    if c = ';' ∧ inQuotes = false then []
    else c :: stripComment (if c = quoteChar then !inQuotes else inQuotes) cs

/-- The text without the blanks around it. -/
def trimBlanks (cs : List Char) : List Char :=
  ((cs.dropWhile (· = ' ')).reverse.dropWhile (· = ' ')).reverse

/-- The sixteen digits a number of R79 is written with, each at the position of its value. -/
def digitChars : List Char := "0123456789ABCDEF".toList

/-- The value of a digit: its position among the digits, a small letter standing for its capital (log entry 11). -/
def digitValue (c : Char) : Option Nat := digitChars.idxOf? c.toUpper

/-- Digits in a base, most significant first, onto an accumulated value. -/
def readDigits (base : Nat) : Nat → List Char → Option Nat
  | acc, [] => some acc
  | acc, c :: cs =>
    match digitValue c with
    | some d => if d < base then readDigits base (acc * base + d) cs else none
    | none => none

/-- A number: "decimal, or hex with the prefix 0x" (R79). -/
def readNumber : List Char → Option Nat
  | [] => none
  | '0' :: 'x' :: [] => none
  | '0' :: 'x' :: digits => readDigits 16 0 digits
  | digits => readDigits 10 0 digits

/-- Two numbers with a comma between them. -/
def readTwoNumbers (cs : List Char) : Option (Nat × Nat) :=
  match readNumber (trimBlanks (cs.takeWhile (· ≠ ','))), readNumber (trimBlanks ((cs.dropWhile (· ≠ ',')).drop 1)) with
  | some a, some b => some (a, b)
  | _, _ => none

/-- The ASCII bytes between the quotes of FEEDS. -/
def readQuoted : List Char → Option (List Byte)
  | c :: cs =>
    let inside := cs.takeWhile (· ≠ quoteChar)
    if c = quoteChar ∧ cs.drop inside.length = [quoteChar] ∧ inside.all (fun x => x.toNat < 128)
    then some (inside.map fun x => BitVec.ofNat 8 x.toNat)
    else none
  | [] => none

/-- A mnemonic that takes no operand. -/
def readBareLine (mnemonic : List Char) : Option AsmLine :=
  if mnemonic = ['N', 'O', 'P'] then some .nop
  else if mnemonic = ['I', 'N', 'I', 'T'] then some .init
  else if mnemonic = ['P', 'E', 'E', 'K'] then some .peek
  else if mnemonic = ['F', 'I', 'N', 'A', 'L'] then some .final
  else if mnemonic = ['R', 'D', 'S', 'T', 'A', 'T'] then some .rdstat
  else if mnemonic = ['I', 'N', 'P', 'U', 'T', 'E', 'N', 'D'] then some .inputend
  else if mnemonic = ['R', 'E', 'S', 'U', 'L', 'T'] then some .result
  else if mnemonic = ['G', 'E', 'T', 'B', 'I', 'T', 'S'] then some .getbits
  else none

/-- A mnemonic with operands. -/
def readOperandLine (mnemonic operands : List Char) : Option AsmLine :=
  if mnemonic = ['F', 'E', 'E', 'D'] then (readTwoNumbers operands).map fun p => .feed p.1 p.2
  else if mnemonic = ['R', 'D', 'D', 'I', 'G'] then (readNumber operands).map .rddig
  else if mnemonic = ['R', 'D', 'L', 'E', 'N'] then (readNumber operands).map .rdlen
  else if mnemonic = ['F', 'E', 'E', 'D', 'B'] then (readNumber operands).map .feedb
  else if mnemonic = ['F', 'E', 'E', 'D', 'W'] then (readNumber operands).map .feedw
  else if mnemonic = ['F', 'E', 'E', 'D', 'S'] then (readQuoted operands).map .feeds
  else none

/-- The commands of one line of text (R79, R80): none for a line that holds no command, `none` for one the assembler
rejects. -/
def assembleText (line : List Char) : Option (List Instr) :=
  let code := trimBlanks (stripComment false line)
  let mnemonic := code.takeWhile (· ≠ ' ')
  let operands := trimBlanks (code.drop mnemonic.length)
  if code = [] then some []
  else
    match (if operands = [] then readBareLine mnemonic else readOperandLine mnemonic operands) with
    | some l => l.assemble
    | none => none

end Sys2Proof.Machine
end

