-- ==== Sys2Proof/Safety.lean ====
section
/-! DEFINITION. What the claims are stated in: the invariant of 10_state.md R31, command sequences, the host's duty on the port,
the events of the port, and the whole-message SHA-1 the engine is compared with. -/

namespace Sys2Proof.Machine

/-- BUF holds 64 zero bytes. -/
abbrev Memory.Blank (m : Memory) : Prop := ∀ a, a < 64 → m.read a = 0

/-- The state between commands: 10_state.md R22 and R31, and the canonical form of BUF. R31 item 3 (IDX ≤ 63) is the type of
IDX. -/
structure State.Inv (s : State) : Prop where
  /-- BUF is in its canonical form, every address below 64. -/
  buf_wf : s.buf.wf = true
  /-- LL is a multiple of 8 (R22). -/
  ll_bytes : s.ll.toNat % 8 = 0
  /-- FIN and COR never hold together (R31 item 1). -/
  not_both : (s.fin && s.cor) = false
  /-- IDX = (LEN div 8) mod 64 (R31 item 2). -/
  idx_len : s.idx.val = s.len.toNat / 8 % 64
  /-- After a corruption, LEN = 0 and IDX = 0 (R31 item 2). -/
  cor_len : s.cor = true → s.len = 0 ∧ s.idx = 0
  /-- A finalized engine is erased and DIG = H (R31 item 4). -/
  fin_erased : s.fin = true → s.len = 0 ∧ s.idx = 0 ∧ s.buf.Blank ∧ s.dig = s.h

/-- Commands one after another, each on the state the one before it left (20_memory.md R61). -/
def runCommands : List Instr → State → Host.Outcome State Fault Refusal
  | [], s => .next s
  | i :: is, s =>
    match exec i s with
    | .next t => runCommands is t
    | .fault r => .fault r
    | .refused r => .refused r

/-- The commands are FEEDs that stand in the opcode map. -/
def isFeed : Instr → Bool
  | .nop => false
  | .init => false
  | .feed n _ => decide (n.toNat ≤ 4)
  | .peek => false
  | .final => false
  | .rddig _ => false
  | .rdlen _ => false
  | .rdstat => false
  | .illegal => false

/-- The message bytes of a command, in order (20_memory.md R52). -/
def messageOf : Instr → List Byte
  | .nop => []
  | .init => []
  | .feed n data => feedOperand n data
  | .peek => []
  | .final => []
  | .rddig _ => []
  | .rdlen _ => []
  | .rdstat => []
  | .illegal => []

/-- The bytes of a FEED of `n` bytes reach the 2^64-bit ceiling (41_feed.md R126; 00_scope.md R8). -/
def State.reachesCeiling (s : State) (n : Nat) : Bool := decide (2 ^ 64 ≤ s.len.toNat + 8 * n)

/-- The one status a command reports, in the order of 60_exceptions.md R235. -/
def expectedStatus (s : State) : Instr → Status
  | .nop => .success
  | .init => .success
  | .feed n _ =>
    if n.toNat = 0 then .success
    else if s.fin then .stateError
    else if s.cor then .inputTooLong
    else if s.reachesCeiling n.toNat then .inputTooLong
    else .success
  | .peek => if s.cor then .inputTooLong else .success
  | .final => if s.cor then .inputTooLong else .success
  | .rddig _ => .success
  | .rdlen _ => .success
  | .rdstat => .success
  | .illegal => .illegalCmd

/-- The state machine of 10_state.md R30: where a command leads. -/
def State.nextPhase (s : State) : Instr → Phase
  | .nop => s.phase
  | .init => .fresh
  | .feed n _ =>
    match s.phase with
    | .fresh => if n.toNat = 0 then .fresh else .accumulating
    | .accumulating => if s.reachesCeiling n.toNat then .corrupted else .accumulating
    | .finalized => .finalized
    | .corrupted => .corrupted
  | .peek => s.phase
  | .final =>
    match s.phase with
    | .fresh => .finalized
    | .accumulating => .finalized
    | .finalized => .finalized
    | .corrupted => .corrupted
  | .rddig _ => s.phase
  | .rdlen _ => s.phase
  | .rdstat => s.phase
  | .illegal => s.phase

/-- The command neither starts nor ends a message: it is not INIT and not FINAL. -/
def continuesSession : Instr → Bool
  | .nop => true
  | .init => false
  | .feed _ _ => true
  | .peek => true
  | .final => false
  | .rddig _ => true
  | .rdlen _ => true
  | .rdstat => true
  | .illegal => true

/-- The command leaves LEN alone: it is not FEED, INIT or FINAL (20_memory.md R59). -/
def keepsLen : Instr → Bool
  | .nop => true
  | .init => false
  | .feed _ _ => false
  | .peek => true
  | .final => false
  | .rddig _ => true
  | .rdlen _ => true
  | .rdstat => true
  | .illegal => true

/-- The response the engine offers, when a command has just ended. -/
def State.response (s : State) : Option Response := s.port.offered

/-- The persistent elements of 10_state.md R36 agree: all but the port and the host's coming pins. -/
structure State.SameEngine (s t : State) : Prop where
  h : s.h = t.h
  lh : s.lh = t.lh
  ll : s.ll = t.ll
  buf : s.buf = t.buf
  idx : s.idx = t.idx
  fin : s.fin = t.fin
  cor : s.cor = t.cor
  dig : s.dig = t.dig

/-- The states agree in everything but the bytes of BUF at positions IDX..63 (10_state.md R24). -/
structure State.AgreeBelowIdx (s t : State) : Prop where
  h : s.h = t.h
  lh : s.lh = t.lh
  ll : s.ll = t.ll
  below : ∀ a, a < s.idx.val → s.buf.read a = t.buf.read a
  idx : s.idx = t.idx
  fin : s.fin = t.fin
  cor : s.cor = t.cor
  dig : s.dig = t.dig
  port : s.port = t.port
  inputs : s.inputs = t.inputs

/-- The host's duty (70_reset_and_hazards.md R267): "While cmd_valid = 1 and cmd_ready = 0, the host must hold cmd_word stable
and keep cmd_valid = 1 until the transfer". `ready` is `cmd_ready` at the edge `now`; it is 0 at an edge with rst = 1 too (R260),
so the offer outlasts a reset. -/
def holdsCommand (ready : Bool) (now later : Pins) : Bool :=
  !now.cmdValid || ready || (later.cmdValid && decide (later.cmdWord = now.cmdWord))

/-- The host keeps its duty at the next `k` edges, as long as the machine goes on. -/
def hostHolds : Nat → State → Bool
  | 0, _ => true
  | k + 1, s =>
    holdsCommand (s.cmdReady s.nextPins) s.nextPins s.takePins.nextPins &&
      match step s with
      | .next t => hostHolds k t
      | .fault _ => true
      | .refused _ => true

/-- What crosses the port at an edge. -/
inductive PortEvent where
  | reset
  | accepted (w : CmdWord)
  | delivered (r : Response)
deriving DecidableEq, Repr

/-- The transfer at the edge with pins `p`: "an edge where valid and ready are both 1" (70_reset_and_hazards.md R265). -/
def portEvent (p : Pins) (s : State) : Option PortEvent :=
  if p.rst then some .reset
  else if s.cmdReady p && p.cmdValid then some (.accepted p.cmdWord)
  else
    match s.port.offered with
    | some r => if p.rspReady then some (.delivered r) else none
    | none => none

/-- The events of the next `k` edges, as long as the machine goes on. -/
def portTrace : Nat → State → List PortEvent
  | 0, _ => []
  | k + 1, s =>
    match step s with
    | .next t => (portEvent s.nextPins s).toList ++ portTrace k t
    | .fault _ => []
    | .refused _ => []

/-- The first word the engine accepts among the events. -/
def firstAccepted : List PortEvent → Option CmdWord
  | [] => none
  | .reset :: es => firstAccepted es
  | .accepted w :: _ => some w
  | .delivered _ :: es => firstAccepted es

/-- The events are in the order of 70_reset_and_hazards.md R266, where `outstanding` says whether a command has been accepted and
not answered yet: one response for each accepted command, no new command before it, and a reset drops the command. -/
def inOrder : Bool → List PortEvent → Bool
  | _, [] => true
  | _, .reset :: es => inOrder false es
  | outstanding, .accepted _ :: es => !outstanding && inOrder true es
  | outstanding, .delivered _ :: es => outstanding && inOrder false es

/-- The events are those of an engine that runs each command as one atomic transition at its acceptance, "(state, cmd) →
(state′, rsp)" (70_reset_and_hazards.md R267): `e` is the engine after the commands so far, `due` the response not yet delivered.
Each delivered response is the one due, and a reset starts the engine anew with none due. -/
def answersAtomically : State → Option Response → List PortEvent → Bool
  | _, _, [] => true
  | _, _, .reset :: es => answersAtomically State.reset none es
  | e, due, .accepted w :: es =>
    due.isNone &&
      match exec (decode w) e with
      | .next t => answersAtomically t t.response es
      | .fault _ => false
      | .refused _ => false
  | e, due, .delivered r :: es => decide (due = some r) && answersAtomically e none es

/-- The 8-byte big-endian length field of a message of `n` bytes (20_memory.md R54). -/
def lengthField (n : Nat) : List Byte :=
  bytesBe32 (BitVec.ofNat 32 (8 * n / 2 ^ 32)) ++ bytesBe32 (BitVec.ofNat 32 (8 * n))

/-- A whole message padded to whole blocks: 0x80, the fewest zeros that make room, the length (00_scope.md R15). -/
def paddedMessage (m : List Byte) : List Byte :=
  m ++ [0x80] ++ List.replicate ((119 - m.length % 64) % 64) 0 ++ lengthField m.length

/-- The big-endian words of a byte list. -/
def wordsOf : List Byte → List Word
  | b0 :: b1 :: b2 :: b3 :: rest => be32 b0 b1 b2 b3 :: wordsOf rest
  | _ => []

/-- `n` blocks of 64 bytes, compressed one after another. -/
def hashBlocks : Nat → Words5 → List Byte → Words5
  | 0, h, _ => h
  | n + 1, h, bs => hashBlocks n (compressWords h (wordsOf (bs.take 64))) (bs.drop 64)

/-- SHA-1 of a whole message, all at once. -/
def sha1 (m : List Byte) : Words5 := hashBlocks ((paddedMessage m).length / 64) iv (paddedMessage m)

end Sys2Proof.Machine
end

