-- ==== Sys2Proof/Certificates/Slice0/Obligations.lean ====
section
/-! DEFINITION. The statements for the provers, from the numbered rules of spec/. -/

open Sys2Proof Sys2Proof.Machine

/-! ### Reset and the session commands -/

/-- 10_state.md R36, column "after rst", for `State.reset`. -/
def Obligations.ResetHoldsTheInitialValues : Prop :=
  State.reset.h = ⟨0x67452301, 0xEFCDAB89, 0x98BADCFE, 0x10325476, 0xC3D2E1F0⟩ ∧
  State.reset.lh = 0 ∧ State.reset.ll = 0 ∧
  (∀ a, a < 64 → State.reset.buf.read a = 0) ∧
  State.reset.idx = 0 ∧ State.reset.fin = false ∧ State.reset.cor = false ∧
  State.reset.dig = ⟨0, 0, 0, 0, 0⟩ ∧ State.reset.port = .idle

/-- 40_init_nop.md R101, in every state. -/
def Obligations.InitRestoresTheInitialValues : Prop :=
  ∀ s : State, ∃ t, exec .init s = .next t ∧
    t.h = ⟨0x67452301, 0xEFCDAB89, 0x98BADCFE, 0x10325476, 0xC3D2E1F0⟩ ∧
    t.lh = 0 ∧ t.ll = 0 ∧ (∀ a, a < 64 → t.buf.read a = 0) ∧ t.idx = 0 ∧ t.fin = false ∧ t.cor = false ∧
    t.dig = ⟨0, 0, 0, 0, 0⟩ ∧ t.port = .resp ⟨.success, 0⟩ ∧ t.inputs = s.inputs

/-- 70_reset_and_hazards.md R264: INIT and rst differ only in the port. -/
def Obligations.InitDiffersFromRstOnlyInThePort : Prop :=
  ∀ (s : State) (p : Pins), p.rst = true →
    ∃ r t, step { s with inputs := p :: s.inputs } = .next r ∧ exec .init s = .next t ∧
      t.SameEngine r ∧ r.port = .idle ∧ t.port = .resp ⟨.success, 0⟩

/-- 40_init_nop.md R105, in every state. -/
def Obligations.NopOnlyResponds : Prop :=
  ∀ s : State, exec .nop s = .next { s with port := .resp ⟨.success, 0⟩ }

/-! ### FEED -/

/-- 41_feed.md R121, in every state. -/
def Obligations.FeedOfNoBytesSucceeds : Prop :=
  ∀ (s : State) (data : Word), exec (.feed 0 data) s = .next { s with port := .resp ⟨.success, 0⟩ }

/-- 41_feed.md R122 and R123: what a FEED of at least one byte answers in a finalized and in a corrupted engine, the engine
unchanged. -/
def Obligations.FeedFailsWhenFinalizedOrCorrupted : Prop :=
  ∀ (s : State) (n : BitVec 4) (data : Word), 0 < n.toNat → n.toNat ≤ 4 →
    (s.fin = true → exec (.feed n data) s = .next { s with port := .resp ⟨.stateError, 0⟩ }) ∧
    (s.fin = false → s.cor = true → exec (.feed n data) s = .next { s with port := .resp ⟨.inputTooLong, 0⟩ })

/-- 41_feed.md R124 and R125: one accepted byte that does not fill the block. -/
def Obligations.FeedStoresAndCountsOneByte : Prop :=
  ∀ (s : State) (data : Word), s.fin = false → s.cor = false → s.idx.val < 63 → s.len.toNat + 8 < 2 ^ 64 →
    ∃ t, exec (.feed 1 data) s = .next t ∧
      (∀ a, t.buf.read a = if a = s.idx.val then data.extractLsb' 24 8 else s.buf.read a) ∧
      t.idx.val = s.idx.val + 1 ∧
      t.ll = s.ll + 8 ∧ (t.ll = 0 → t.lh = s.lh + 1) ∧ (t.ll ≠ 0 → t.lh = s.lh) ∧
      t.h = s.h ∧ t.fin = false ∧ t.cor = false ∧ t.dig = s.dig ∧ t.port = .resp ⟨.success, 0⟩ ∧ t.inputs = s.inputs

/-- 41_feed.md R127: the byte that fills the block makes the engine compress it; BUF is not cleared. -/
def Obligations.FeedCompressesAFullBlock : Prop :=
  ∀ (s : State) (data : Word), s.fin = false → s.cor = false → s.idx.val = 63 → s.len.toNat + 8 < 2 ^ 64 →
    ∃ t, exec (.feed 1 data) s = .next t ∧
      (∀ a, t.buf.read a = if a = 63 then data.extractLsb' 24 8 else s.buf.read a) ∧
      t.h = compress s.h t.buf ∧ t.idx = 0 ∧
      t.ll = s.ll + 8 ∧ (t.ll = 0 → t.lh = s.lh + 1) ∧ (t.ll ≠ 0 → t.lh = s.lh) ∧
      t.fin = false ∧ t.cor = false ∧ t.dig = s.dig ∧ t.port = .resp ⟨.success, 0⟩ ∧ t.inputs = s.inputs

/-- 41_feed.md R120 with 20_memory.md R52: a FEED of `n + 1` bytes is a FEED of its first byte and then, if that succeeded, a
FEED of the other `n`, in every state. -/
def Obligations.FeedWorksByteByByte : Prop :=
  ∀ (s t : State) (n : BitVec 4) (data : Word), 0 < n.toNat → n.toNat ≤ 3 → exec (.feed 1 data) s = .next t →
    (t.response = some ⟨.success, 0⟩ → exec (.feed (n + 1) data) s = exec (.feed n (data <<< 8)) t) ∧
    (t.response ≠ some ⟨.success, 0⟩ → exec (.feed (n + 1) data) s = .next t)

/-- A FEED that is not turned away completes (41_feed.md R120): every field it leaves, for each count the encoding admits. The
premise on LL is the invariant of 10_state.md R22. -/
def Obligations.FeedCompletes : Prop :=
  ∀ (s : State) (n : BitVec 4) (data : Word), n.toNat ≤ 4 → s.fin = false → s.cor = false → s.ll.toNat % 8 = 0 →
    s.len.toNat + 8 * n.toNat < 2 ^ 64 →
    ∃ t, exec (.feed n data) s = .next t ∧ t.port = .resp ⟨.success, 0⟩ ∧
      t.len.toNat = s.len.toNat + 8 * n.toNat ∧
      t.idx.val = (s.idx.val + n.toNat) % 64 ∧
      (∀ j, j < n.toNat → t.buf.read ((s.idx.val + j) % 64) = data.extractLsb' (24 - 8 * j) 8) ∧
      (∀ a, (∀ j, j < n.toNat → a ≠ (s.idx.val + j) % 64) → t.buf.read a = s.buf.read a) ∧
      (s.idx.val + n.toNat < 64 → t.h = s.h) ∧
      (64 ≤ s.idx.val + n.toNat → ∃ m : Memory,
        (∀ a, a < 64 → m.read a = if a < s.idx.val then s.buf.read a else data.extractLsb' (24 - 8 * (a - s.idx.val)) 8) ∧
        t.h = compress s.h m) ∧
      t.fin = false ∧ t.cor = false ∧ t.dig = s.dig ∧ t.inputs = s.inputs

/-- 41_feed.md R126: byte `j` of the FEED makes LEN reach 2^64. The later bytes are dropped. -/
def Obligations.FeedOverflowCorrupts : Prop :=
  ∀ (s : State) (n : BitVec 4) (data : Word) (j : Nat), s.Inv → s.fin = false → s.cor = false →
    n.toNat ≤ 4 → j < n.toNat → s.len.toNat + 8 * (j + 1) = 2 ^ 64 →
    ∃ t, exec (.feed n data) s = .next t ∧ t.port = .resp ⟨.inputTooLong, 0⟩ ∧
      t.cor = true ∧ t.lh = 0 ∧ t.ll = 0 ∧ t.idx = 0 ∧
      t.buf = s.buf.writeBytes s.idx.val ((bytesBe32 data).take (j + 1)) ∧
      t.h = compress s.h t.buf ∧ t.fin = false ∧ t.dig = s.dig ∧ t.inputs = s.inputs

/-- What a FEED leaves alone, in every state and for every count: DIG, FIN, the host's pins, a set COR, and every byte of BUF but
those at the positions its bytes go to. -/
def Obligations.FeedFrame : Prop :=
  ∀ (s t : State) (n : BitVec 4) (data : Word), exec (.feed n data) s = .next t →
    t.dig = s.dig ∧ t.fin = s.fin ∧ t.inputs = s.inputs ∧ (s.cor = true → t.cor = true) ∧
    ∀ a, (∀ j, j < n.toNat → a ≠ (s.idx.val + j) % 64) → t.buf.read a = s.buf.read a

/-- 70_reset_and_hazards.md R272, in every state: a FEED leaves H as it was, or its bytes reach the end of the block and it compresses
exactly one block into H once: BUF with the first of its bytes stored from IDX to the end of the block. -/
def Obligations.FeedCompressesAtMostOnce : Prop :=
  ∀ (s t : State) (n : BitVec 4) (data : Word), exec (.feed n data) s = .next t →
    t.h = s.h ∨ (64 ≤ s.idx.val + n.toNat ∧
      t.h = compress s.h (s.buf.writeBytes s.idx.val ((feedOperand n data).take (64 - s.idx.val))))

/-! ### Compression -/

/-- 43_compression.md R170, R171, R173 to R178: whatever schedule W and working variables V satisfy the rules' equations, the
result is Hin plus the working variables after round 79. -/
def Obligations.CompressFollowsTheRounds : Prop :=
  ∀ (hin : Words5) (blk : Memory) (W : Nat → Word) (V : Nat → Working),
    (∀ t, t < 16 → W t = blk.read (4 * t) ++ blk.read (4 * t + 1) ++ blk.read (4 * t + 2) ++ blk.read (4 * t + 3)) →
    (∀ t, 16 ≤ t → t < 80 → W t = (W (t - 3) ^^^ W (t - 8) ^^^ W (t - 14) ^^^ W (t - 16)).rotateLeft 1) →
    V 0 = ⟨hin.w0, hin.w1, hin.w2, hin.w3, hin.w4⟩ →
    (∀ t, t < 80 → V (t + 1) =
      ⟨(V t).a.rotateLeft 5 +
          (if t < 20 then ((V t).b &&& (V t).c) ||| (~~~(V t).b &&& (V t).d)
           else if t < 40 then (V t).b ^^^ (V t).c ^^^ (V t).d
           else if t < 60 then ((V t).b &&& (V t).c) ||| ((V t).b &&& (V t).d) ||| ((V t).c &&& (V t).d)
           else (V t).b ^^^ (V t).c ^^^ (V t).d) +
          (V t).e + W t +
          (if t < 20 then 0x5A827999 else if t < 40 then 0x6ED9EBA1 else if t < 60 then 0x8F1BBCDC else 0xCA62C1D6),
        (V t).a, (V t).b.rotateLeft 30, (V t).c, (V t).d⟩) →
    compress hin blk =
      ⟨hin.w0 + (V 80).a, hin.w1 + (V 80).b, hin.w2 + (V 80).c, hin.w3 + (V 80).d, hin.w4 + (V 80).e⟩

/-- 43_compression.md R181: in rounds 0..19 `|` may be `^` or `+`, the functions at the extreme values, and the symmetry of the
majority function. -/
def Obligations.RoundFunctionsAtTheirCorners : Prop :=
  ∀ (t : Nat) (b c d : Word),
    (t < 20 → roundFunction t b c d = (b &&& c) ^^^ (~~~b &&& d) ∧ roundFunction t b c d = (b &&& c) + (~~~b &&& d) ∧
      roundFunction t 0xFFFFFFFF c d = c) ∧
    (t < 80 → roundFunction t 0 0 0 = 0 ∧ roundFunction t 0xFFFFFFFF 0xFFFFFFFF 0xFFFFFFFF = 0xFFFFFFFF) ∧
    (40 ≤ t → t < 60 → roundFunction t b c d = roundFunction t c b d ∧ roundFunction t b c d = roundFunction t b d c)

/-! ### Padding, PEEK and FINAL -/

/-- 42_result_padding.md R145 to R149 for idx up to 55: one compression, of a block given byte by byte. -/
def Obligations.PaddingFitsOneBlock : Prop :=
  ∀ (hin : Words5) (lh ll : Word) (buf : Memory) (idx : Nat), idx < 56 →
    ∃ p : Memory, padAndCompress hin lh ll buf idx = (compress hin p, p) ∧
      ∀ a, a < 64 → p.read a =
        if a < idx then buf.read a else if a = idx then 0x80 else if a < 56 then 0
        else (lh ++ ll).extractLsb' (8 * (63 - a)) 8

/-- 42_result_padding.md R145 to R149 for idx 56 to 63: two compressions, of blocks given byte by byte. -/
def Obligations.PaddingTakesTwoBlocks : Prop :=
  ∀ (hin : Words5) (lh ll : Word) (buf : Memory) (idx : Nat), 56 ≤ idx → idx < 64 →
    ∃ q p : Memory, padAndCompress hin lh ll buf idx = (compress (compress hin q) p, p) ∧
      (∀ a, a < 64 → q.read a = if a < idx then buf.read a else if a = idx then 0x80 else 0) ∧
      (∀ a, a < 64 → p.read a = if a < 56 then 0 else (lh ++ ll).extractLsb' (8 * (63 - a)) 8)

/-- 42_result_padding.md R140 to R143, each of the three cases: DIG alone changes, and only on success. -/
def Obligations.PeekWritesOnlyTheDigest : Prop :=
  ∀ s : State,
    (s.cor = true → exec .peek s = .next { s with port := .resp ⟨.inputTooLong, 0⟩ }) ∧
    (s.cor = false → s.fin = true → exec .peek s = .next { s with dig := s.h, port := .resp ⟨.success, 0⟩ }) ∧
    (s.cor = false → s.fin = false → exec .peek s =
      .next { s with dig := (padAndCompress s.h s.lh s.ll s.buf s.idx.val).1, port := .resp ⟨.success, 0⟩ })

/-- 42_result_padding.md R150 to R153, each of the three cases: what FINAL leaves in every field. -/
def Obligations.FinalPadsInPlaceAndErases : Prop :=
  ∀ s : State,
    (s.cor = true → exec .final s = .next { s with port := .resp ⟨.inputTooLong, 0⟩ }) ∧
    (s.cor = false → s.fin = true → exec .final s = .next { s with dig := s.h, port := .resp ⟨.success, 0⟩ }) ∧
    (s.cor = false → s.fin = false → ∃ t, exec .final s = .next t ∧
      t.h = (padAndCompress s.h s.lh s.ll s.buf s.idx.val).1 ∧ t.dig = t.h ∧
      (∀ a, t.buf.read a = 0) ∧ t.lh = 0 ∧ t.ll = 0 ∧ t.idx = 0 ∧ t.fin = true ∧ t.cor = false ∧
      t.port = .resp ⟨.success, 0⟩ ∧ t.inputs = s.inputs)

/-- 42_result_padding.md R154 and 20_memory.md R60: from one state PEEK and FINAL write the same DIG and give the same response,
and a second PEEK after PEEK, or FINAL after FINAL, changes nothing. -/
def Obligations.ResultCommandsAgreeAndRepeat : Prop :=
  ∀ s : State, ∃ t u, exec .peek s = .next t ∧ exec .final s = .next u ∧ t.dig = u.dig ∧ t.response = u.response ∧
    exec .peek t = .next t ∧ exec .final u = .next u

/-- 41_feed.md R129: a FEED after PEEK continues the same message: it does what it would have done without the PEEK, DIG
apart. -/
def Obligations.FeedAfterPeekContinuesTheMessage : Prop :=
  ∀ (s t : State) (n : BitVec 4) (data : Word), exec .peek s = .next t →
    ∃ u v, exec (.feed n data) t = .next u ∧ exec (.feed n data) s = .next v ∧ u = { v with dig := t.dig }

/-! ### Reads and the serializer -/

/-- 44_readout.md R203: each word index, in every state. -/
def Obligations.RddigReturnsTheWord : Prop :=
  ∀ s : State,
    exec (.rddig 0) s = .next { s with port := .resp ⟨.success, s.dig.w0⟩ } ∧
    exec (.rddig 1) s = .next { s with port := .resp ⟨.success, s.dig.w1⟩ } ∧
    exec (.rddig 2) s = .next { s with port := .resp ⟨.success, s.dig.w2⟩ } ∧
    exec (.rddig 3) s = .next { s with port := .resp ⟨.success, s.dig.w3⟩ } ∧
    exec (.rddig 4) s = .next { s with port := .resp ⟨.success, s.dig.w4⟩ }

/-- 44_readout.md R205: each half, in every state. -/
def Obligations.RdlenReturnsTheHalf : Prop :=
  ∀ s : State,
    exec (.rdlen 0) s = .next { s with port := .resp ⟨.success, s.ll⟩ } ∧
    exec (.rdlen 1) s = .next { s with port := .resp ⟨.success, s.lh⟩ }

/-- 20_memory.md R59: RDLEN 0 and RDLEN 1 together read LEN, with any commands but FEED, INIT and FINAL between them. -/
def Obligations.RdlenPairIsConsistent : Prop :=
  ∀ (s : State) (cs : List Instr), (∀ i ∈ cs, keepsLen i = true) →
    ∃ t u lo hi, exec (.rdlen 0) s = .next t ∧ t.response = some ⟨.success, lo⟩ ∧
      runCommands (cs ++ [.rdlen 1]) t = .next u ∧ u.response = some ⟨.success, hi⟩ ∧ hi ++ lo = s.len

/-- 44_readout.md R207 with the layout of 10_state.md R29, bit by bit, in every state. -/
def Obligations.RdstatShowsTheFlagsAndIndex : Prop :=
  ∀ s : State, ∃ w : Word, exec .rdstat s = .next { s with port := .resp ⟨.success, w⟩ } ∧
    w.getLsbD 0 = s.fin ∧ w.getLsbD 1 = s.cor ∧ w.extractLsb' 2 6 = 0 ∧
    (w.extractLsb' 8 6).toNat = s.idx.val ∧ w.extractLsb' 14 18 = 0

/-- 44_readout.md R200, R201: 20 digest bytes, byte 4i + j being byte j, most significant first, of word i. -/
def Obligations.SerializerIsBigEndian : Prop :=
  ∀ x : Words5, (serialize x).length = 20 ∧
    ∀ i j, i < 5 → j < 4 → (serialize x)[4 * i + j]? = (wordAt x i).map fun w => w.extractLsb' (24 - 8 * j) 8

/-- 00_scope.md R13, 20_memory.md R56: reading four bytes big-endian and writing a word big-endian undo each other. -/
def Obligations.BigEndianRoundTrip : Prop :=
  (∀ w : Word, be32 (byteOf w 0) (byteOf w 1) (byteOf w 2) (byteOf w 3) = w) ∧
  (∀ b0 b1 b2 b3 : Byte, bytesBe32 (be32 b0 b1 b2 b3) = [b0, b1, b2, b3])

/-! ### Encoding -/

/-- 30_encoding.md R75: ILLEGAL changes no state and responds ILLEGAL_CMD, in every state. -/
def Obligations.IllegalOnlyResponds : Prop :=
  ∀ s : State, exec .illegal s = .next { s with port := .resp ⟨.illegalCmd, 0⟩ }

/-- The MODEL'S CHOICE (log entry 6), no rule of the spec: an instruction term whose operand no word decodes to acts as the ILLEGAL
word its encoding would be. -/
def Obligations.OperandOutOfRangeActsAsIllegal : Prop :=
  ∀ (i : Instr) (s : State), i.WellFormed = false → exec i s = exec .illegal s

/-- 30_encoding.md R74, every word. -/
def Obligations.DecodeFollowsTheOpcodeMap : Prop :=
  ∀ w : CmdWord,
    let op := (w.extractLsb' 36 4 : BitVec 4).toNat
    let arg := (w.extractLsb' 32 4 : BitVec 4).toNat
    (op = 0 → arg = 0 → decode w = .nop) ∧
    (op = 1 → arg = 0 → decode w = .init) ∧
    (op = 2 → arg ≤ 4 → decode w = .feed (w.extractLsb' 32 4) (w.extractLsb' 0 32)) ∧
    (op = 3 → arg = 0 → decode w = .peek) ∧
    (op = 4 → arg = 0 → decode w = .final) ∧
    (op = 5 → arg ≤ 4 → decode w = .rddig (w.extractLsb' 32 4)) ∧
    (op = 6 → arg ≤ 1 → decode w = .rdlen (w.extractLsb' 32 4)) ∧
    (op = 7 → arg = 0 → decode w = .rdstat) ∧
    (decode w = .illegal ↔
      8 ≤ op ∨ ((op = 0 ∨ op = 1 ∨ op = 3 ∨ op = 4 ∨ op = 7) ∧ arg ≠ 0) ∨ ((op = 2 ∨ op = 5) ∧ 5 ≤ arg) ∨
        (op = 6 ∧ 2 ≤ arg))

/-- 30_encoding.md R77, 93_implementation_defined.md I7: DATA bits a command ignores do not matter: neither the whole of DATA with
a command that is no FEED, nor the bytes of a FEED from its count on. -/
def Obligations.IgnoredDataBitsDoNotMatter : Prop :=
  (∀ w v : CmdWord, (w.extractLsb' 32 8 : BitVec 8) = v.extractLsb' 32 8 → (w.extractLsb' 36 4 : BitVec 4) ≠ 2 →
    decode w = decode v) ∧
  (∀ (s : State) (n : BitVec 4) (d e : Word),
    (∀ j, j < n.toNat → (d.extractLsb' (24 - 8 * j) 8 : Byte) = e.extractLsb' (24 - 8 * j) 8) →
    exec (.feed n d) s = exec (.feed n e) s)

/-- Decode and encode agree: every well-formed command, with every operand at every legal value, comes back from its word. -/
def Obligations.DecodeOfEncodeIsTheCommand : Prop :=
  ∀ i : Instr, i.WellFormed = true → decode (encode i) = i

/-- What decode gives is well-formed, and encoding it again gives back OP and ARG of any word that is a command, and the whole word
of a FEED. -/
def Obligations.EncodeOfDecodeKeepsTheWord : Prop :=
  ∀ w : CmdWord, (decode w).WellFormed = true ∧
    (decode w ≠ .illegal → (encode (decode w)).extractLsb' 32 8 = (w.extractLsb' 32 8 : BitVec 8)) ∧
    ((w.extractLsb' 36 4 : BitVec 4) = 2 → decode w ≠ .illegal → encode (decode w) = w)

/-- 30_encoding.md R81: the words of the examples decode to the commands they stand for. -/
def Obligations.ExampleWordsDecode : Prop :=
  decode 0x0000000000 = .nop ∧ decode 0x1000000000 = .init ∧ decode 0x2361626300 = .feed 3 0x61626300 ∧
  decode 0x2000000000 = .feed 0 0 ∧ decode 0x2180000000 = .feed 1 0x80000000 ∧
  decode 0x2461626364 = .feed 4 0x61626364 ∧ decode 0x3000000000 = .peek ∧ decode 0x4000000000 = .final ∧
  decode 0x5400000000 = .rddig 4 ∧ decode 0x6100000000 = .rdlen 1 ∧ decode 0x7000000000 = .rdstat ∧
  decode 0x8000000000 = .illegal ∧ decode 0x0100000000 = .illegal ∧ decode 0x2500000000 = .illegal ∧
  decode 0x6200000000 = .illegal

/-- 30_encoding.md R71, R72: the response word holds the status code in bits 34:32 and RDATA in bits 31:0, and reading it back gives
the response, for every status the engine produces. -/
def Obligations.ResponseWordHoldsStatusAndData : Prop :=
  ∀ r : Response, r.word.extractLsb' 0 32 = r.rdata ∧
    (r.status = .success → (r.word.extractLsb' 32 3 : BitVec 3) = 0) ∧
    (r.status = .inputTooLong → (r.word.extractLsb' 32 3 : BitVec 3) = 2) ∧
    (r.status = .stateError → (r.word.extractLsb' 32 3 : BitVec 3) = 3) ∧
    (r.status = .illegalCmd → (r.word.extractLsb' 32 3 : BitVec 3) = 4) ∧
    (r.status ≠ .nullPointer → Response.ofWord r.word = some r)

/-- 30_encoding.md R80: FEEDS expands to FEEDs that spell exactly its string. -/
def Obligations.FeedsSpellsItsString : Prop :=
  ∀ bs : List Byte, (∀ i ∈ expandFeeds bs, isFeed i = true) ∧ (expandFeeds bs).flatMap messageOf = bs

/-- 30_encoding.md R79: whatever the assembler accepts is a sequence of commands of the opcode map. -/
def Obligations.AssembledCommandsAreWellFormed : Prop :=
  ∀ (l : AsmLine) (is : List Instr), l.assemble = some is → ∀ i ∈ is, i.WellFormed = true ∧ i ≠ .illegal

/-! ### Errors and whole-machine rules -/

/-- 60_exceptions.md R242: every command has a defined result in every state: a next state that offers a response. -/
def Obligations.EveryCommandHasAResult : Prop :=
  ∀ (i : Instr) (s : State), ∃ t r, exec i s = .next t ∧ t.port = .resp r ∧ t.inputs = s.inputs

/-- 60_exceptions.md R235: exactly one status, the first condition in the rule's order deciding. -/
def Obligations.StatusFollowsThePriority : Prop :=
  ∀ (i : Instr) (s : State), i.WellFormed = true → s.ll.toNat % 8 = 0 →
    ∃ t v, exec i s = .next t ∧ t.response = some ⟨expectedStatus s i, v⟩

/-- 60_exceptions.md R236: a failing command changes no state, except for the FEED that overflows LEN. -/
def Obligations.FailingCommandsChangeNothing : Prop :=
  ∀ (i : Instr) (s t : State) (r : Response), exec i s = .next t → t.response = some r → r.status ≠ .success →
    r.rdata = 0 ∧
    (s.SameEngine t ∨ ((∃ n d, i = .feed n d) ∧ r.status = .inputTooLong ∧ s.cor = false ∧ t.cor = true))

/-- 30_encoding.md R71, R72, 60_exceptions.md R233, R234: RDATA is not 0 only in a successful read, NULL_POINTER is never produced,
and STATE_ERROR comes only from a FEED of at least one byte in a finalized engine. ILLEGAL_CMD comes only from a word that decodes to
ILLEGAL (30_encoding.md R72, R75, 60_exceptions.md R232), or from an instruction term that is not well-formed: that second case is
the MODEL'S CHOICE of log entry 6, no rule of the spec, and no word decodes to such a term. -/
def Obligations.ResponsesStayInTheirRange : Prop :=
  ∀ (i : Instr) (s t : State) (r : Response), exec i s = .next t → t.response = some r →
    r.status ≠ .nullPointer ∧
    (r.rdata ≠ 0 → r.status = .success ∧ ((∃ k, i = .rddig k) ∨ (∃ k, i = .rdlen k) ∨ i = .rdstat)) ∧
    (r.status = .stateError → (∃ n d, i = .feed n d ∧ 0 < n.toNat) ∧ s.fin = true) ∧
    (r.status = .illegalCmd → i = .illegal ∨ i.WellFormed = false)

/-- 60_exceptions.md R231: corruption is sticky. FEED (n > 0), PEEK and FINAL fail, the other commands succeed, nothing changes;
INIT and rst, and they alone, clear COR. -/
def Obligations.CorruptionIsSticky : Prop :=
  (∀ (i : Instr) (s : State), s.Inv → s.cor = true → i.WellFormed = true → i ≠ .init →
    ∃ t r, exec i s = .next t ∧ t.response = some r ∧ s.SameEngine t ∧ t.cor = true ∧
      r.status = (match i with
        | .feed n _ => if n.toNat = 0 then .success else .inputTooLong
        | .peek => .inputTooLong
        | .final => .inputTooLong
        | .illegal => .illegalCmd
        | _ => .success)) ∧
  (∀ s : State, s.cor = true → ∃ t, exec .init s = .next t ∧ t.response = some ⟨.success, 0⟩ ∧ t.cor = false) ∧
  (∀ (s : State) (p : Pins), s.cor = true → p.rst = true →
    ∃ t, step { s with inputs := p :: s.inputs } = .next t ∧ t.cor = false) ∧
  (∀ s t : State, s.Inv → s.cor = true → step s = .next t → t.cor = false →
    s.nextPins.rst = true ∨ ∃ w, s.port = .exec w 0 ∧ decode w = .init)

/-- 10_state.md R20, R21, R23, R25, R26, R27: which commands may change which register. -/
def Obligations.OnlyTheseCommandsWriteARegister : Prop :=
  ∀ (i : Instr) (s t : State), exec i s = .next t →
    (t.dig ≠ s.dig → i = .peek ∨ i = .final ∨ i = .init) ∧
    ((t.h ≠ s.h ∨ t.lh ≠ s.lh ∨ t.ll ≠ s.ll ∨ t.idx ≠ s.idx ∨ t.buf ≠ s.buf) →
      i = .init ∨ i = .final ∨ ∃ n d, i = .feed n d) ∧
    (t.fin ≠ s.fin → (i = .final ∧ t.fin = true) ∨ i = .init) ∧
    (t.cor ≠ s.cor → ((∃ n d, i = .feed n d) ∧ t.cor = true) ∨ i = .init)

/-- 10_state.md R30: where each command leads in the state machine, and rst leads to Fresh. -/
def Obligations.PhasesFollowTheStateMachine : Prop :=
  (∀ (i : Instr) (s t : State), s.Inv → i.WellFormed = true → exec i s = .next t → t.phase = s.nextPhase i) ∧
  (∀ (s : State) (p : Pins), p.rst = true → ∃ t, step { s with inputs := p :: s.inputs } = .next t ∧ t.phase = .fresh)

/-! ### Invariants, isolation and the message -/

/-- 10_state.md R22 and R31, with the canonical form of BUF, at reset. -/
def Obligations.ResetMeetsTheInvariant : Prop := State.reset.Inv

/-- 10_state.md R22 and R31: every step keeps them, from every state that has them. -/
def Obligations.StepKeepsTheInvariant : Prop :=
  ∀ s t : State, s.Inv → step s = .next t → t.Inv

/-- 10_state.md R22 and R31: in every state the engine can reach from reset, whatever the host drives, the invariant holds. -/
def Obligations.EveryReachableStateMeetsTheInvariant : Prop :=
  ∀ (k : Nat) (ps : List Pins) (t : State),
    Host.Core.run Sys2Proof.core k { State.reset with inputs := ps } = .next t → t.Inv

/-- 10_state.md R24: no response ever depends on BUF[IDX..63]. Two states that agree in everything else give the same response to
any command and still agree. -/
def Obligations.UnusedBufferBytesNeverShow : Prop :=
  ∀ (i : Instr) (s t : State), s.AgreeBelowIdx t →
    ∃ s' t', exec i s = .next s' ∧ exec i t = .next t' ∧ s'.response = t'.response ∧ s'.AgreeBelowIdx t'

/-- 20_memory.md R65: chunk-size independence, from every state, across an overflow too. -/
def Obligations.ChunkingDoesNotMatter : Prop :=
  ∀ (s : State) (cs ds : List Instr), (∀ i ∈ cs, isFeed i = true) → (∀ i ∈ ds, isFeed i = true) →
    cs.flatMap messageOf = ds.flatMap messageOf →
    ∃ t u, runCommands cs s = .next t ∧ runCommands ds s = .next u ∧ t.SameEngine u

/-- 41_feed.md R128: in a session without FINAL, LEN is 8 times the number of bytes fed, as long as the engine is not
corrupted. -/
def Obligations.LenCountsTheBytesFed : Prop :=
  ∀ (s : State) (cs : List Instr), (∀ i ∈ cs, i.WellFormed = true ∧ continuesSession i = true) →
    ∃ t, runCommands (.init :: cs) s = .next t ∧
      (t.cor = false → t.fin = false ∧ t.len.toNat = 8 * (cs.flatMap messageOf).length)

/-- The engine computes SHA-1 (00_scope.md R1): from any state, INIT, then commands that feed a message in any chunks, with any
reads and PEEKs among them, then PEEK or FINAL, leave in DIG the SHA-1 of the whole message. -/
def Obligations.EngineComputesSha1OfTheMessage : Prop :=
  ∀ (s : State) (cs : List Instr) (r : Instr), (∀ i ∈ cs, i.WellFormed = true ∧ continuesSession i = true) →
    8 * (cs.flatMap messageOf).length < 2 ^ 64 → r = .peek ∨ r = .final →
    ∃ t, runCommands (.init :: (cs ++ [r])) s = .next t ∧ t.dig = sha1 (cs.flatMap messageOf) ∧
      t.response = some ⟨.success, 0⟩

/-! ### The port and the step -/

/-- A step runs the decoded command: in the last edge of EXEC, without rst, the step is `exec` of what the command register decodes
to, the edge's pins taken off; and a word placed by `withFetchWord` is run by the very next step. That the whole effect comes at the
last edge of EXEC is the MODEL'S CHOICE of log entry 2 (70_reset_and_hazards.md R265 says only that the rule executes in EXEC, and
R267 allows one atomic transition); that `withFetchWord` stands for a word the engine has just accepted, in that last edge, is the
model's reading of log entry 3. -/
def Obligations.StepRunsTheDecodedCommand : Prop :=
  (∀ (s : State) (w : CmdWord), s.port = .exec w 0 → s.nextPins.rst = false → step s = exec (decode w) s.takePins) ∧
  (∀ (s : State) (w : CmdWord), step (s.withFetchWord 40 w.toNat) = exec (decode w) { s with port := .exec w 0 })

/-- 70_reset_and_hazards.md R260: an edge with rst = 1, in any state of the port. -/
def Obligations.RstEdgeResetsEverything : Prop :=
  ∀ (s : State) (p : Pins) (rest : List Pins), s.inputs = p :: rest → p.rst = true →
    step s = .next { State.reset with inputs := rest } ∧ s.cmdReady p = false ∧ s.rspValid p = false

/-- 70_reset_and_hazards.md R265: the outputs in IDLE, in the whole of EXEC (its last edge too) and in RESP, and where every edge
without rst leads but the last of EXEC. That a counter in EXEC is set to the latency less one at acceptance and counts down, and that
the registers hold still until the last edge of EXEC, is the MODEL'S CHOICE of log entry 2. -/
def Obligations.PortMovesAsStated : Prop :=
  ∀ (s : State) (p : Pins) (rest : List Pins), s.inputs = p :: rest → p.rst = false →
    (s.port = .idle → s.cmdReady p = true ∧ s.rspValid p = false ∧
      (p.cmdValid = false → step s = .next { s with inputs := rest }) ∧
      (p.cmdValid = true →
        step s = .next { s with port := .exec p.cmdWord (s.latency (decode p.cmdWord) - 1), inputs := rest })) ∧
    (∀ w more, s.port = .exec w more → s.cmdReady p = false ∧ s.rspValid p = false) ∧
    (∀ w more, s.port = .exec w (more + 1) → step s = .next { s with port := .exec w more, inputs := rest }) ∧
    (∀ r, s.port = .resp r → s.cmdReady p = false ∧ s.rspValid p = true ∧ s.rspWord = some r.word ∧
      (p.rspReady = false → step s = .next { s with inputs := rest }) ∧
      (p.rspReady = true → step s = .next { s with port := .idle, inputs := rest }))

/-- 70_reset_and_hazards.md R265, R270, R272: an accepted command is in RESP after its latency, at least one edge, with the effect
of its rule, if no rst comes between. That the latency is read at acceptance and the whole effect comes at the last edge is the MODEL'S
CHOICE of log entry 2. -/
def Obligations.AcceptedCommandCompletesInItsLatency : Prop :=
  ∀ (s : State) (p : Pins) (ps rest : List Pins), s.port = .idle → s.inputs = p :: (ps ++ rest) → p.rst = false →
    p.cmdValid = true → (∀ q ∈ ps, q.rst = false) → ps.length = s.latency (decode p.cmdWord) →
    0 < ps.length ∧
    Host.Core.run Sys2Proof.core (ps.length + 1) s =
      exec (decode p.cmdWord) { s with port := .exec p.cmdWord 0, inputs := rest }

/-- 70_reset_and_hazards.md R267: a command the host offers while a response is outstanding, and holds as it must, is the one the
engine takes once the response is delivered; the engine's registers wait. -/
def Obligations.HeldCommandIsTakenAfterTheResponse : Prop :=
  ∀ (s : State) (p q : Pins) (rest : List Pins) (r : Response), s.port = .resp r → s.inputs = p :: q :: rest →
    p.rst = false → q.rst = false → p.rspReady = true → p.cmdValid = true → holdsCommand (s.cmdReady p) p q = true →
    ∃ t more, Host.Core.run Sys2Proof.core 2 s = .next t ∧ t.port = .exec p.cmdWord more ∧ s.SameEngine t ∧ t.inputs = rest

/-- 70_reset_and_hazards.md R267, the host's part: as long as the host holds what it offers, over any number of edges and through
resets, the first word the engine accepts is the one offered now. -/
def Obligations.OfferedWordIsTheOneAccepted : Prop :=
  ∀ (k : Nat) (s : State) (w : CmdWord), s.nextPins.cmdValid = true → hostHolds k s = true →
    firstAccepted (portTrace k s) = some w → w = s.nextPins.cmdWord

/-- 70_reset_and_hazards.md R267, "one atomic transition per command": over any number of edges from IDLE, whatever the host drives
and whatever the latencies are, each response delivered is the one the command gives when the commands are run one after another on the
engine's registers alone, and rst starts the engine anew. -/
def Obligations.PortAnswersAsAtomicCommands : Prop :=
  ∀ (k : Nat) (s : State), s.port = .idle → answersAtomically s none (portTrace k s) = true

/-- 70_reset_and_hazards.md R266, its order: over any number of edges from IDLE, acceptances and deliveries alternate, a command first,
so that at most one command is outstanding and each has at most one response, and rst drops the outstanding one. The statement is about
the order alone, not about which response a command gets (PortAnswersAsAtomicCommands) nor that it gets one
(AcceptedCommandCompletesInItsLatency). That the same holds from power-on, where R261 leaves everything unspecified, is the MODEL'S
CHOICE of log entry 4: no response is offered and no command taken before the first rst. -/
def Obligations.ResponsesComeOnePerCommandInOrder : Prop :=
  ∀ (k : Nat) (s : State), s.port = .idle ∨ s.port = .powerUp → inOrder false (portTrace k s) = true

/-- 70_reset_and_hazards.md R261: a command offered before the first reset has no meaning, and rst makes the engine usable. -/
def Obligations.CommandBeforeResetIsRefused : Prop :=
  ∀ (s : State) (p : Pins) (rest : List Pins), s.port = .powerUp → s.inputs = p :: rest →
    (p.rst = false → p.cmdValid = true → step s = .refused .commandBeforeReset) ∧
    (p.rst = true → step s = .next { State.reset with inputs := rest })
end

