-- ==== Sys2Proof/Laws/Bytes.lean ====
section
/-! SUPPORT. Bytes and words: `be32` as a concatenation, the bits of a concatenation of four bytes, and the bits of `byteOf`. -/

namespace Sys2Proof.Machine

/-- The bits of four bytes side by side, the first the most significant. -/
theorem getLsbD_append4 (b0 b1 b2 b3 : Byte) (i : Nat) : (b0 ++ b1 ++ b2 ++ b3 : BitVec (8 + 8 + 8 + 8)).getLsbD i =
    if i < 8 then b3.getLsbD i else if i < 16 then b2.getLsbD (i - 8) else if i < 24 then b1.getLsbD (i - 16)
    else b0.getLsbD (i - 24) := by
  rw [BitVec.getLsbD_append, BitVec.getLsbD_append, BitVec.getLsbD_append]
  by_cases h0 : i < 8
  · simp [h0]
  · by_cases h1 : i < 16
    · simp [h0, h1, show i - 8 < 8 by omega]
    · by_cases h2 : i < 24
      · simp [h0, h1, h2, show ¬ i - 8 < 8 by omega, show i - 8 - 8 = i - 16 by omega, show i - 16 < 8 by omega]
      · simp [h0, h1, h2, show ¬ i - 8 < 8 by omega, show ¬ i - 8 - 8 < 8 by omega, show i - 8 - 8 - 8 = i - 24 by omega]

/-- `be32` puts the bytes side by side, the first in the high bits (00_scope.md R11, R13). -/
theorem be32_eq_append (b0 b1 b2 b3 : Byte) : be32 b0 b1 b2 b3 = b0 ++ b1 ++ b2 ++ b3 := by
  have ge (b : Byte) {k : Nat} (hk : 8 ≤ k) : b.getLsbD k = false := BitVec.getLsbD_of_ge b k hk
  apply BitVec.eq_of_getLsbD_eq
  intro i hi
  refine Eq.trans ?_ (getLsbD_append4 b0 b1 b2 b3 i).symm
  simp only [be32, BitVec.getLsbD_or, BitVec.getLsbD_shiftLeft, BitVec.getLsbD_setWidth]
  by_cases h0 : i < 8
  · simp [h0, hi, show i < 16 by omega, show i < 24 by omega]
  · by_cases h1 : i < 16
    · simp [h0, h1, hi, show i < 24 by omega, show i - 8 < 32 by omega, ge b3 (k := i) (by omega)]
    · by_cases h2 : i < 24
      · simp [h0, h1, h2, hi, show i - 16 < 32 by omega, ge b3 (k := i) (by omega), ge b2 (k := i - 8) (by omega)]
      · simp [h0, h1, h2, hi, show i - 24 < 32 by omega, ge b3 (k := i) (by omega), ge b2 (k := i - 8) (by omega),
          ge b1 (k := i - 16) (by omega)]

/-- Bit `i` of byte `j` of a word. -/
theorem getLsbD_byteOf (w : Word) (j : Nat) {i : Nat} (hi : i < 8) : (byteOf w j).getLsbD i = w.getLsbD (24 - 8 * j + i) := by
  simp [byteOf, hi]

end Sys2Proof.Machine
end

