-- ==== Sys2Proof/Laws/Compress.lean ====
section
/-! SUPPORT. The schedule and the rounds against the equations that define them (43_compression.md R173, R176, R177), and what a
compression reads of its block (R172). -/

namespace Sys2Proof.Machine

/-- Schedule words 0..15 depend on the 64 bytes of the block alone. -/
theorem blockWords_congr {m n : Memory} (h : ∀ a, a < 64 → m.read a = n.read a) : blockWords m = blockWords n := by
  unfold blockWords
  refine List.map_congr_left fun i hi => ?_
  rw [List.mem_range] at hi
  unfold Memory.readBe32
  rw [h _ (by omega), h _ (by omega), h _ (by omega), h _ (by omega)]

/-- Compress reads the 64 bytes of the block and nothing else of it (R172). -/
theorem compress_congr (hin : Words5) {m n : Memory} (h : ∀ a, a < 64 → m.read a = n.read a) :
    compress hin m = compress hin n := by
  rw [compress, compress, blockWords_congr h]

theorem blockWords_length (m : Memory) : (blockWords m).length = 16 := by simp [blockWords]

/-- Words that satisfy the schedule's recurrence are what `extendSchedule` appends. -/
theorem extendSchedule_of_recurrence {W : Nat → Word}
    (hW : ∀ t, 16 ≤ t → t < 80 → W t = rotl (W (t - 3) ^^^ W (t - 8) ^^^ W (t - 14) ^^^ W (t - 16)) 1) :
    ∀ n k, 16 ≤ k → k + n ≤ 80 →
      extendSchedule n ((List.range k).map W).reverse = ((List.range (k + n)).map W).reverse := by
  intro n
  induction n with
  | zero => intro k _ _; rfl
  | succ n ih =>
    intro k hk hn
    have hget : ∀ j, j < k → (((List.range k).map W).reverse).getD j 0 = W (k - 1 - j) := by
      intro j hj
      rw [List.getD_eq_getElem?_getD, List.getElem?_reverse (by simpa using hj)]
      have : k - 1 - j < k := by omega
      simp [this]
    have hnext : nextScheduleWord ((List.range k).map W).reverse = W k := by
      rw [nextScheduleWord, hget 2 (by omega), hget 7 (by omega), hget 13 (by omega), hget 15 (by omega),
        hW k hk (by omega), show k - 1 - 2 = k - 3 by omega, show k - 1 - 7 = k - 8 by omega,
        show k - 1 - 13 = k - 14 by omega, show k - 1 - 15 = k - 16 by omega]
    rw [extendSchedule, hnext]
    have hcons : W k :: ((List.range k).map W).reverse = ((List.range (k + 1)).map W).reverse := by
      simp [List.range_succ]
    rw [hcons, ih (k + 1) (by omega) (by omega)]
    congr 3
    omega

/-- `W[0..79]` is the list of any words that start with the block and satisfy the recurrence (R173). -/
theorem schedule_of_recurrence {W : Nat → Word} {first16 : List Word} (h16 : first16 = (List.range 16).map W)
    (hW : ∀ t, 16 ≤ t → t < 80 → W t = rotl (W (t - 3) ^^^ W (t - 8) ^^^ W (t - 14) ^^^ W (t - 16)) 1) :
    schedule first16 = (List.range 80).map W := by
  rw [schedule, h16, extendSchedule_of_recurrence hW 64 16 (by omega) (by omega), List.reverse_reverse]

/-- Working variables that satisfy the round equation are what `compressRounds` computes. -/
theorem compressRounds_of_recurrence {W : Nat → Word} {V : Nat → Working}
    (hV : ∀ t, t < 80 → V (t + 1) = compressRound t (W t) (V t)) :
    ∀ n t, t + n ≤ 80 → compressRounds t ((List.range' t n).map W) (V t) = V (t + n) := by
  intro n
  induction n with
  | zero => intro t _; rfl
  | succ n ih =>
    intro t ht
    rw [List.range'_succ, List.map_cons, compressRounds, ← hV t (by omega), ih (t + 1) (by omega)]
    congr 1
    omega

end Sys2Proof.Machine
end

