-- ==== Sys2Proof/Laws/Memory.lean ====
section
/-! SUPPORT. The laws of the block buffer: read after write, what a write leaves alone, and the canonical form. None of the
read laws needs the canonical form. -/

namespace Sys2Proof.Machine

theorem lookupCell_eraseCell_same (a : Nat) (cs : List Host.Cell) : lookupCell a (eraseCell a cs) = Memory.unlisted := by
  induction cs with
  | nil => rfl
  | cons c cs ih =>
    by_cases h : c.1 = a
    · simp [eraseCell, h, ih]
    · simp [eraseCell, lookupCell, h, ih]

theorem lookupCell_eraseCell_other {a x : Nat} (hx : x ≠ a) (cs : List Host.Cell) :
    lookupCell x (eraseCell a cs) = lookupCell x cs := by
  induction cs with
  | nil => rfl
  | cons c cs ih =>
    by_cases h : c.1 = a
    · have : ¬ c.1 = x := fun e => hx (e.symm.trans h)
      rw [eraseCell, if_pos h, ih, lookupCell, if_neg this]
    · by_cases g : c.1 = x
      · simp [eraseCell, lookupCell, g, hx]
      · simp [eraseCell, lookupCell, h, g, ih]

theorem lookupCell_insertCell_other {a x : Nat} (hx : x ≠ a) (b : Byte) (cs : List Host.Cell) :
    lookupCell x (insertCell a b cs) = lookupCell x cs := by
  have hne : ¬ a = x := fun e => hx e.symm
  induction cs with
  | nil => simp [insertCell, lookupCell, hne]
  | cons c cs ih =>
    by_cases h : c.1 < a
    · rw [insertCell, if_pos h, lookupCell, lookupCell, ih]
    · simp [insertCell, lookupCell, h, hne]

theorem lookupCell_insertCell_same (a : Nat) (b : Byte) (cs : List Host.Cell) :
    lookupCell a (insertCell a b cs) = b := by
  induction cs with
  | nil => simp [insertCell, lookupCell]
  | cons c cs ih =>
    by_cases h : c.1 < a
    · have : ¬ c.1 = a := by omega
      simp [insertCell, lookupCell, h, this, ih]
    · simp [insertCell, lookupCell, h]

@[simp] theorem Memory.read_allZero (a : Nat) : Memory.allZero.read a = 0 := rfl

/-- A read after a write to the same byte gives the value written. -/
@[simp] theorem Memory.read_write_same (m : Memory) (a : Nat) (b : Byte) : (m.write a b).read a = b := by
  unfold Memory.write Memory.read
  split
  · rename_i h
    rw [lookupCell_eraseCell_same, h]
  · exact lookupCell_insertCell_same _ _ _

/-- A write leaves every other byte alone. -/
theorem Memory.read_write_other (m : Memory) {a x : Nat} (b : Byte) (hx : x ≠ a) : (m.write a b).read x = m.read x := by
  unfold Memory.write Memory.read
  split
  · exact lookupCell_eraseCell_other hx _
  · rw [lookupCell_insertCell_other hx, lookupCell_eraseCell_other hx]

theorem Memory.read_write (m : Memory) (a x : Nat) (b : Byte) :
    (m.write a b).read x = if x = a then b else m.read x := by
  by_cases h : x = a
  · simp [h]
  · simp [h, Memory.read_write_other m b h]

@[simp] theorem Memory.writeBytes_nil (m : Memory) (a : Nat) : m.writeBytes a [] = m := rfl

@[simp] theorem Memory.writeBytes_cons (m : Memory) (a : Nat) (b : Byte) (bs : List Byte) :
    m.writeBytes a (b :: bs) = (m.write a b).writeBytes (a + 1) bs := rfl

/-- Reading one byte after consecutive bytes have been written. -/
theorem Memory.read_writeBytes (bs : List Byte) : ∀ (m : Memory) (a x : Nat),
    (m.writeBytes a bs).read x = if a ≤ x ∧ x < a + bs.length then bs.getD (x - a) 0 else m.read x := by
  induction bs with
  | nil =>
    intro m a x
    have : ¬ (a ≤ x ∧ x < a + ([] : List Byte).length) := by simp
    rw [if_neg this]
    rfl
  | cons b bs ih =>
    intro m a x
    rw [Memory.writeBytes_cons, ih, Memory.read_write]
    by_cases h : a + 1 ≤ x ∧ x < a + 1 + bs.length
    · have h2 : a ≤ x ∧ x < a + (b :: bs).length := by simp only [List.length_cons]; omega
      obtain ⟨k, hk⟩ : ∃ k, x - a = k + 1 := ⟨x - a - 1, by omega⟩
      have hk2 : x - (a + 1) = k := by omega
      rw [if_pos h, if_pos h2, hk, hk2]
      simp
    · rw [if_neg h]
      by_cases g : x = a
      · subst g
        have h2 : x ≤ x ∧ x < x + (b :: bs).length := by simp
        rw [if_pos rfl, if_pos h2]
        simp
      · have h2 : ¬ (a ≤ x ∧ x < a + (b :: bs).length) := by simp only [List.length_cons]; omega
        rw [if_neg g, if_neg h2]

/-- Reading one byte after a run of bytes has been zeroed. -/
theorem Memory.read_zeroFill (m : Memory) (k last x : Nat) :
    (m.zeroFill k last).read x = if k ≤ x ∧ x ≤ last then 0 else m.read x := by
  unfold Memory.zeroFill
  rw [Memory.read_writeBytes]
  simp only [List.length_replicate]
  by_cases h : k ≤ x ∧ x ≤ last
  · have h2 : k ≤ x ∧ x < k + (last + 1 - k) := by omega
    rw [if_pos h, if_pos h2]
    have h3 : x - k < last + 1 - k := by omega
    simp [List.getD, h3]
  · have h2 : ¬ (k ≤ x ∧ x < k + (last + 1 - k)) := by omega
    rw [if_neg h, if_neg h2]

/-! The canonical form. -/

theorem canonicalFrom_mono {lo lo' : Nat} (h : lo ≤ lo') {cs : List Host.Cell} (hc : canonicalFrom lo' cs = true) :
    canonicalFrom lo cs = true := by
  cases cs with
  | nil => rfl
  | cons c cs =>
    simp only [canonicalFrom, Bool.and_eq_true, decide_eq_true_eq] at hc ⊢
    exact ⟨⟨⟨by omega, hc.1.1.2⟩, hc.1.2⟩, hc.2⟩

theorem canonicalFrom_eraseCell (a : Nat) : ∀ (cs : List Host.Cell) (lo : Nat),
    canonicalFrom lo cs = true → canonicalFrom lo (eraseCell a cs) = true := by
  intro cs
  induction cs with
  | nil => intro lo _; rfl
  | cons c cs ih =>
    intro lo hc
    simp only [canonicalFrom, Bool.and_eq_true, decide_eq_true_eq] at hc
    by_cases h : c.1 = a
    · simp only [eraseCell, h, if_true]
      exact ih lo (canonicalFrom_mono (by omega) hc.2)
    · simp only [eraseCell, h, if_false, canonicalFrom, Bool.and_eq_true, decide_eq_true_eq]
      exact ⟨hc.1, ih _ hc.2⟩

theorem canonicalFrom_insertCell {a : Nat} {b : Byte} (ha : a < 64) (hb : b ≠ Memory.unlisted) :
    ∀ (cs : List Host.Cell) (lo : Nat), lo ≤ a → canonicalFrom lo (eraseCell a cs) = true →
      canonicalFrom lo (insertCell a b (eraseCell a cs)) = true := by
  suffices H : ∀ (cs : List Host.Cell) (lo : Nat), lo ≤ a → (∀ c ∈ cs, c.1 ≠ a) → canonicalFrom lo cs = true →
      canonicalFrom lo (insertCell a b cs) = true by
    intro cs lo hlo hc
    refine H _ lo hlo ?_ hc
    clear hc
    induction cs with
    | nil => intro c hc; cases hc
    | cons c cs ih =>
      intro x hx
      by_cases h : c.1 = a
      · simp only [eraseCell, h, if_true] at hx
        exact ih x hx
      · simp only [eraseCell, h, if_false, List.mem_cons] at hx
        rcases hx with rfl | hx
        · exact h
        · exact ih x hx
  intro cs
  induction cs with
  | nil =>
    intro lo hlo _ _
    simp [insertCell, canonicalFrom, hlo, ha, hb]
  | cons c cs ih =>
    intro lo hlo hne hc
    simp only [canonicalFrom, Bool.and_eq_true, decide_eq_true_eq] at hc
    have hca : c.1 ≠ a := hne c (by simp)
    by_cases h : c.1 < a
    · simp only [insertCell, h, if_true, canonicalFrom, Bool.and_eq_true, decide_eq_true_eq]
      exact ⟨hc.1, ih _ (by omega) (fun x hx => hne x (by simp [hx])) hc.2⟩
    · simp only [insertCell, h, if_false, canonicalFrom, Bool.and_eq_true, decide_eq_true_eq]
      exact ⟨⟨⟨hlo, ha⟩, hb⟩, ⟨⟨by omega, hc.1.1.2⟩, hc.1.2⟩, hc.2⟩

@[simp] theorem Memory.wf_allZero : Memory.allZero.wf = true := rfl

/-- A write inside BUF keeps the canonical form. -/
theorem Memory.wf_write {m : Memory} {a : Nat} (b : Byte) (ha : a < 64) (hm : m.wf = true) : (m.write a b).wf = true := by
  unfold Memory.write Memory.wf
  split
  · exact canonicalFrom_eraseCell a _ _ hm
  · rename_i h
    exact canonicalFrom_insertCell ha h _ _ (Nat.zero_le _) (canonicalFrom_eraseCell a _ _ hm)

theorem Memory.wf_writeBytes (bs : List Byte) : ∀ {m : Memory} {a : Nat}, a + bs.length ≤ 64 → m.wf = true →
    (m.writeBytes a bs).wf = true := by
  induction bs with
  | nil => intro m a _ hm; exact hm
  | cons b bs ih =>
    intro m a ha hm
    simp only [List.length_cons] at ha
    exact ih (by omega) (Memory.wf_write b (by omega) hm)

theorem Memory.wf_zeroFill {m : Memory} {k last : Nat} (hl : last < 64) (hm : m.wf = true) : (m.zeroFill k last).wf = true := by
  unfold Memory.zeroFill
  by_cases h : k ≤ last
  · exact Memory.wf_writeBytes _ (by simp only [List.length_replicate]; omega) hm
  · have : last + 1 - k = 0 := by omega
    simpa [this] using hm

theorem Memory.wf_padMark {m : Memory} {idx : Nat} (hi : idx < 64) (hm : m.wf = true) : (padMark m idx).wf = true :=
  Memory.wf_write _ hi hm

theorem Memory.wf_padLength {p : Memory} (lh ll : Word) (hp : p.wf = true) : (padLength p lh ll).wf = true :=
  Memory.wf_writeBytes _ (by simp [bytesBe32]) (Memory.wf_writeBytes _ (by simp [bytesBe32]) hp)

theorem Memory.wf_padFinalBlock {p : Memory} (k : Nat) (lh ll : Word) (hp : p.wf = true) :
    (padFinalBlock p k lh ll).wf = true :=
  Memory.wf_padLength lh ll (Memory.wf_zeroFill (by decide) hp)

/-- The block the padding leaves is in canonical form. -/
theorem Memory.wf_padAndCompress {buf : Memory} {idx : Nat} (hin : Words5) (lh ll : Word) (hi : idx < 64)
    (hb : buf.wf = true) : (padAndCompress hin lh ll buf idx).2.wf = true := by
  unfold padAndCompress
  split
  · exact Memory.wf_padFinalBlock _ _ _ Memory.wf_allZero
  · exact Memory.wf_padFinalBlock _ _ _ (Memory.wf_padMark hi hb)

/-- Canonical lists that read alike are alike: equal memories are equal data. -/
theorem canonicalFrom_ext : ∀ (cs ds : List Host.Cell) (lo : Nat), canonicalFrom lo cs = true → canonicalFrom lo ds = true →
    (∀ a, lookupCell a cs = lookupCell a ds) → cs = ds := by
  have below : ∀ (cs : List Host.Cell) (lo a : Nat), canonicalFrom lo cs = true → a < lo →
      lookupCell a cs = Memory.unlisted := by
    intro cs
    induction cs with
    | nil => intro lo a _ _; rfl
    | cons c cs ih =>
      intro lo a hc ha
      simp only [canonicalFrom, Bool.and_eq_true, decide_eq_true_eq] at hc
      have : ¬ c.1 = a := by omega
      simp only [lookupCell, this, if_false]
      exact ih (c.1 + 1) a hc.2 (by omega)
  intro cs
  induction cs with
  | nil =>
    intro ds lo _ hd h
    cases ds with
    | nil => rfl
    | cons d ds =>
      simp only [canonicalFrom, Bool.and_eq_true, decide_eq_true_eq] at hd
      have := h d.1
      simp only [lookupCell, if_true] at this
      exact absurd this.symm hd.1.2
  | cons c cs ih =>
    intro ds lo hc hd h
    simp only [canonicalFrom, Bool.and_eq_true, decide_eq_true_eq] at hc
    cases ds with
    | nil =>
      have := h c.1
      simp only [lookupCell, if_true] at this
      exact absurd this hc.1.2
    | cons d ds =>
      simp only [canonicalFrom, Bool.and_eq_true, decide_eq_true_eq] at hd
      have hk : c.1 = d.1 := by
        rcases Nat.lt_trichotomy c.1 d.1 with g | g | g
        · have := h c.1
          have hn : ¬ d.1 = c.1 := by omega
          simp only [lookupCell, if_true, hn, if_false] at this
          rw [below ds (d.1 + 1) c.1 hd.2 (by omega)] at this
          exact absurd this hc.1.2
        · exact g
        · have := h d.1
          have hn : ¬ c.1 = d.1 := by omega
          simp only [lookupCell, if_true, hn, if_false] at this
          rw [below cs (c.1 + 1) d.1 hc.2 (by omega)] at this
          exact absurd this.symm hd.1.2
      have hv : c.2 = d.2 := by
        have := h c.1
        simpa [lookupCell, hk] using this
      have hcd : c = d := Prod.ext hk hv
      subst hcd
      congr 1
      refine ih ds (c.1 + 1) hc.2 hd.2 fun a => ?_
      by_cases g : c.1 = a
      · subst g
        rw [below cs (c.1 + 1) c.1 hc.2 (by omega), below ds (c.1 + 1) c.1 hd.2 (by omega)]
      · simpa [lookupCell, g] using h a

theorem Memory.ext_read {m n : Memory} (hm : m.wf = true) (hn : n.wf = true) (h : ∀ a, m.read a = n.read a) : m = n := by
  cases m
  cases n
  exact congrArg Memory.mk (canonicalFrom_ext _ _ 0 hm hn h)

/-- No byte outside BUF is ever listed (20_memory.md R50). -/
theorem Memory.read_outside {m : Memory} (hm : m.wf = true) {a : Nat} (ha : 64 ≤ a) : m.read a = 0 := by
  suffices H : ∀ (cs : List Host.Cell) (lo : Nat), canonicalFrom lo cs = true → lookupCell a cs = Memory.unlisted from H _ 0 hm
  intro cs
  induction cs with
  | nil => intro lo _; rfl
  | cons c cs ih =>
    intro lo hc
    simp only [canonicalFrom, Bool.and_eq_true, decide_eq_true_eq] at hc
    have : ¬ c.1 = a := by omega
    simp only [lookupCell, this, if_false]
    exact ih _ hc.2

end Sys2Proof.Machine
end

