-- ==== Sys2Proof/Laws/State.lean ====
section
/-! SUPPORT. What each named update of the state does to each field: one lemma a field, true by definition. -/

namespace Sys2Proof.Machine

variable (s : State)

/-! `respond` ends a command (00_scope.md R13). -/

@[simp] theorem State.respond_h (st : Status) (v : Word) : (s.respond st v).h = s.h := rfl
@[simp] theorem State.respond_lh (st : Status) (v : Word) : (s.respond st v).lh = s.lh := rfl
@[simp] theorem State.respond_ll (st : Status) (v : Word) : (s.respond st v).ll = s.ll := rfl
@[simp] theorem State.respond_buf (st : Status) (v : Word) : (s.respond st v).buf = s.buf := rfl
@[simp] theorem State.respond_idx (st : Status) (v : Word) : (s.respond st v).idx = s.idx := rfl
@[simp] theorem State.respond_fin (st : Status) (v : Word) : (s.respond st v).fin = s.fin := rfl
@[simp] theorem State.respond_cor (st : Status) (v : Word) : (s.respond st v).cor = s.cor := rfl
@[simp] theorem State.respond_dig (st : Status) (v : Word) : (s.respond st v).dig = s.dig := rfl
@[simp] theorem State.respond_port (st : Status) (v : Word) : (s.respond st v).port = .resp ⟨st, v⟩ := rfl
@[simp] theorem State.respond_inputs (st : Status) (v : Word) : (s.respond st v).inputs = s.inputs := rfl

/-! `raise` reports a failure (60_exceptions.md R236). -/

@[simp] theorem State.raise_h (st : Status) : (s.raise st).h = s.h := rfl
@[simp] theorem State.raise_lh (st : Status) : (s.raise st).lh = s.lh := rfl
@[simp] theorem State.raise_ll (st : Status) : (s.raise st).ll = s.ll := rfl
@[simp] theorem State.raise_buf (st : Status) : (s.raise st).buf = s.buf := rfl
@[simp] theorem State.raise_idx (st : Status) : (s.raise st).idx = s.idx := rfl
@[simp] theorem State.raise_fin (st : Status) : (s.raise st).fin = s.fin := rfl
@[simp] theorem State.raise_cor (st : Status) : (s.raise st).cor = s.cor := rfl
@[simp] theorem State.raise_dig (st : Status) : (s.raise st).dig = s.dig := rfl
@[simp] theorem State.raise_port (st : Status) : (s.raise st).port = .resp ⟨st, 0⟩ := rfl
@[simp] theorem State.raise_inputs (st : Status) : (s.raise st).inputs = s.inputs := rfl

/-! `rejectWord` answers a word that is no command (30_encoding.md R75). -/

@[simp] theorem State.rejectWord_h : s.rejectWord.h = s.h := rfl
@[simp] theorem State.rejectWord_lh : s.rejectWord.lh = s.lh := rfl
@[simp] theorem State.rejectWord_ll : s.rejectWord.ll = s.ll := rfl
@[simp] theorem State.rejectWord_buf : s.rejectWord.buf = s.buf := rfl
@[simp] theorem State.rejectWord_idx : s.rejectWord.idx = s.idx := rfl
@[simp] theorem State.rejectWord_fin : s.rejectWord.fin = s.fin := rfl
@[simp] theorem State.rejectWord_cor : s.rejectWord.cor = s.cor := rfl
@[simp] theorem State.rejectWord_dig : s.rejectWord.dig = s.dig := rfl
@[simp] theorem State.rejectWord_port : s.rejectWord.port = .resp ⟨.illegalCmd, 0⟩ := rfl
@[simp] theorem State.rejectWord_inputs : s.rejectWord.inputs = s.inputs := rfl

/-! `setDig` writes DIG (42_result_padding.md R143). -/

@[simp] theorem State.setDig_h (x : Words5) : (s.setDig x).h = s.h := rfl
@[simp] theorem State.setDig_lh (x : Words5) : (s.setDig x).lh = s.lh := rfl
@[simp] theorem State.setDig_ll (x : Words5) : (s.setDig x).ll = s.ll := rfl
@[simp] theorem State.setDig_buf (x : Words5) : (s.setDig x).buf = s.buf := rfl
@[simp] theorem State.setDig_idx (x : Words5) : (s.setDig x).idx = s.idx := rfl
@[simp] theorem State.setDig_fin (x : Words5) : (s.setDig x).fin = s.fin := rfl
@[simp] theorem State.setDig_cor (x : Words5) : (s.setDig x).cor = s.cor := rfl
@[simp] theorem State.setDig_dig (x : Words5) : (s.setDig x).dig = x := rfl
@[simp] theorem State.setDig_port (x : Words5) : (s.setDig x).port = s.port := rfl
@[simp] theorem State.setDig_inputs (x : Words5) : (s.setDig x).inputs = s.inputs := rfl

/-! `clearSession` is the effect of INIT (40_init_nop.md R101). -/

@[simp] theorem State.clearSession_h : s.clearSession.h = iv := rfl
@[simp] theorem State.clearSession_lh : s.clearSession.lh = 0 := rfl
@[simp] theorem State.clearSession_ll : s.clearSession.ll = 0 := rfl
@[simp] theorem State.clearSession_buf : s.clearSession.buf = Memory.allZero := rfl
@[simp] theorem State.clearSession_idx : s.clearSession.idx = 0 := rfl
@[simp] theorem State.clearSession_fin : s.clearSession.fin = false := rfl
@[simp] theorem State.clearSession_cor : s.clearSession.cor = false := rfl
@[simp] theorem State.clearSession_dig : s.clearSession.dig = ⟨0, 0, 0, 0, 0⟩ := rfl
@[simp] theorem State.clearSession_port : s.clearSession.port = s.port := rfl
@[simp] theorem State.clearSession_inputs : s.clearSession.inputs = s.inputs := rfl

/-! `storeByte` stores one byte (41_feed.md R124). -/

@[simp] theorem State.storeByte_h (b : Byte) : (s.storeByte b).h = s.h := rfl
@[simp] theorem State.storeByte_lh (b : Byte) : (s.storeByte b).lh = s.lh := rfl
@[simp] theorem State.storeByte_ll (b : Byte) : (s.storeByte b).ll = s.ll := rfl
@[simp] theorem State.storeByte_buf (b : Byte) : (s.storeByte b).buf = s.buf.write s.idx.val b := rfl
@[simp] theorem State.storeByte_idx (b : Byte) : (s.storeByte b).idx = s.idx := rfl
@[simp] theorem State.storeByte_fin (b : Byte) : (s.storeByte b).fin = s.fin := rfl
@[simp] theorem State.storeByte_cor (b : Byte) : (s.storeByte b).cor = s.cor := rfl
@[simp] theorem State.storeByte_dig (b : Byte) : (s.storeByte b).dig = s.dig := rfl
@[simp] theorem State.storeByte_port (b : Byte) : (s.storeByte b).port = s.port := rfl
@[simp] theorem State.storeByte_inputs (b : Byte) : (s.storeByte b).inputs = s.inputs := rfl

/-! `countByte` counts one byte (41_feed.md R125, R126). -/

@[simp] theorem State.countByte_h : s.countByte.h = s.h := rfl
@[simp] theorem State.countByte_lh : s.countByte.lh = nextLH s.lh s.ll := rfl
@[simp] theorem State.countByte_ll : s.countByte.ll = nextLL s.ll := rfl
@[simp] theorem State.countByte_buf : s.countByte.buf = s.buf := rfl
@[simp] theorem State.countByte_idx : s.countByte.idx = s.idx := rfl
@[simp] theorem State.countByte_fin : s.countByte.fin = s.fin := rfl
@[simp] theorem State.countByte_cor : s.countByte.cor = (s.cor || overflows s.lh s.ll) := rfl
@[simp] theorem State.countByte_dig : s.countByte.dig = s.dig := rfl
@[simp] theorem State.countByte_port : s.countByte.port = s.port := rfl
@[simp] theorem State.countByte_inputs : s.countByte.inputs = s.inputs := rfl

/-! `padInPlace` pads the live state (42_result_padding.md R152). -/

@[simp] theorem State.padInPlace_h : s.padInPlace.h = (padAndCompress s.h s.lh s.ll s.buf s.idx.val).1 := rfl
@[simp] theorem State.padInPlace_lh : s.padInPlace.lh = s.lh := rfl
@[simp] theorem State.padInPlace_ll : s.padInPlace.ll = s.ll := rfl
@[simp] theorem State.padInPlace_buf : s.padInPlace.buf = (padAndCompress s.h s.lh s.ll s.buf s.idx.val).2 := rfl
@[simp] theorem State.padInPlace_idx : s.padInPlace.idx = s.idx := rfl
@[simp] theorem State.padInPlace_fin : s.padInPlace.fin = s.fin := rfl
@[simp] theorem State.padInPlace_cor : s.padInPlace.cor = s.cor := rfl
@[simp] theorem State.padInPlace_dig : s.padInPlace.dig = s.dig := rfl
@[simp] theorem State.padInPlace_port : s.padInPlace.port = s.port := rfl
@[simp] theorem State.padInPlace_inputs : s.padInPlace.inputs = s.inputs := rfl

/-! `eraseSession` erases it (42_result_padding.md R153). -/

@[simp] theorem State.eraseSession_h : s.eraseSession.h = s.h := rfl
@[simp] theorem State.eraseSession_lh : s.eraseSession.lh = 0 := rfl
@[simp] theorem State.eraseSession_ll : s.eraseSession.ll = 0 := rfl
@[simp] theorem State.eraseSession_buf : s.eraseSession.buf = Memory.allZero := rfl
@[simp] theorem State.eraseSession_idx : s.eraseSession.idx = 0 := rfl
@[simp] theorem State.eraseSession_fin : s.eraseSession.fin = s.fin := rfl
@[simp] theorem State.eraseSession_cor : s.eraseSession.cor = s.cor := rfl
@[simp] theorem State.eraseSession_dig : s.eraseSession.dig = s.dig := rfl
@[simp] theorem State.eraseSession_port : s.eraseSession.port = s.port := rfl
@[simp] theorem State.eraseSession_inputs : s.eraseSession.inputs = s.inputs := rfl

/-! `finalize` is the in-place finalization (42_result_padding.md R152, R153). -/

@[simp] theorem State.finalize_h : s.finalize.h = (padAndCompress s.h s.lh s.ll s.buf s.idx.val).1 := rfl
@[simp] theorem State.finalize_lh : s.finalize.lh = 0 := rfl
@[simp] theorem State.finalize_ll : s.finalize.ll = 0 := rfl
@[simp] theorem State.finalize_buf : s.finalize.buf = Memory.allZero := rfl
@[simp] theorem State.finalize_idx : s.finalize.idx = 0 := rfl
@[simp] theorem State.finalize_fin : s.finalize.fin = true := rfl
@[simp] theorem State.finalize_cor : s.finalize.cor = s.cor := rfl
@[simp] theorem State.finalize_dig : s.finalize.dig = s.dig := rfl
@[simp] theorem State.finalize_port : s.finalize.port = s.port := rfl
@[simp] theorem State.finalize_inputs : s.finalize.inputs = s.inputs := rfl

/-! `takePins` takes the coming pins off. -/

@[simp] theorem State.takePins_h : s.takePins.h = s.h := rfl
@[simp] theorem State.takePins_lh : s.takePins.lh = s.lh := rfl
@[simp] theorem State.takePins_ll : s.takePins.ll = s.ll := rfl
@[simp] theorem State.takePins_buf : s.takePins.buf = s.buf := rfl
@[simp] theorem State.takePins_idx : s.takePins.idx = s.idx := rfl
@[simp] theorem State.takePins_fin : s.takePins.fin = s.fin := rfl
@[simp] theorem State.takePins_cor : s.takePins.cor = s.cor := rfl
@[simp] theorem State.takePins_dig : s.takePins.dig = s.dig := rfl
@[simp] theorem State.takePins_port : s.takePins.port = s.port := rfl
@[simp] theorem State.takePins_inputs : s.takePins.inputs = s.inputs.tail := rfl

/-! `rstEdge` is the effect of rst (70_reset_and_hazards.md R260). -/

@[simp] theorem State.rstEdge_h : s.rstEdge.h = iv := rfl
@[simp] theorem State.rstEdge_lh : s.rstEdge.lh = 0 := rfl
@[simp] theorem State.rstEdge_ll : s.rstEdge.ll = 0 := rfl
@[simp] theorem State.rstEdge_buf : s.rstEdge.buf = Memory.allZero := rfl
@[simp] theorem State.rstEdge_idx : s.rstEdge.idx = 0 := rfl
@[simp] theorem State.rstEdge_fin : s.rstEdge.fin = false := rfl
@[simp] theorem State.rstEdge_cor : s.rstEdge.cor = false := rfl
@[simp] theorem State.rstEdge_dig : s.rstEdge.dig = ⟨0, 0, 0, 0, 0⟩ := rfl
@[simp] theorem State.rstEdge_port : s.rstEdge.port = .idle := rfl
@[simp] theorem State.rstEdge_inputs : s.rstEdge.inputs = s.inputs := rfl

/-! `accept` accepts a command (70_reset_and_hazards.md R265). -/

@[simp] theorem State.accept_h (w : CmdWord) : (s.accept w).h = s.h := rfl
@[simp] theorem State.accept_lh (w : CmdWord) : (s.accept w).lh = s.lh := rfl
@[simp] theorem State.accept_ll (w : CmdWord) : (s.accept w).ll = s.ll := rfl
@[simp] theorem State.accept_buf (w : CmdWord) : (s.accept w).buf = s.buf := rfl
@[simp] theorem State.accept_idx (w : CmdWord) : (s.accept w).idx = s.idx := rfl
@[simp] theorem State.accept_fin (w : CmdWord) : (s.accept w).fin = s.fin := rfl
@[simp] theorem State.accept_cor (w : CmdWord) : (s.accept w).cor = s.cor := rfl
@[simp] theorem State.accept_dig (w : CmdWord) : (s.accept w).dig = s.dig := rfl
@[simp] theorem State.accept_port (w : CmdWord) : (s.accept w).port = .exec w (s.latency (decode w) - 1) := rfl
@[simp] theorem State.accept_inputs (w : CmdWord) : (s.accept w).inputs = s.inputs := rfl

/-! `advance` moves IDX on and compresses a block that is full (41_feed.md R127). -/

theorem State.advance_full (h : s.idx.val = 63) : s.advance = { s with h := compress s.h s.buf, idx := 0 } := by
  simp [State.advance, h]

theorem State.advance_not_full (h : s.idx.val ≠ 63) : s.advance = { s with idx := Fin.ofNat 64 (s.idx.val + 1) } := by
  have : ¬ s.idx.val + 1 = 64 := by omega
  simp [State.advance, this]

@[simp] theorem State.advance_idx : s.advance.idx = Fin.ofNat 64 (s.idx.val + 1) := by
  unfold State.advance
  split
  · rename_i h
    rw [h]
    rfl
  · rfl

theorem State.advance_h : s.advance.h = if s.idx.val = 63 then compress s.h s.buf else s.h := by
  by_cases h : s.idx.val = 63
  · simp [State.advance_full s h, h]
  · simp [State.advance_not_full s h, h]

@[simp] theorem State.advance_lh : s.advance.lh = s.lh := by unfold State.advance; split <;> rfl
@[simp] theorem State.advance_ll : s.advance.ll = s.ll := by unfold State.advance; split <;> rfl
@[simp] theorem State.advance_buf : s.advance.buf = s.buf := by unfold State.advance; split <;> rfl
@[simp] theorem State.advance_fin : s.advance.fin = s.fin := by unfold State.advance; split <;> rfl
@[simp] theorem State.advance_cor : s.advance.cor = s.cor := by unfold State.advance; split <;> rfl
@[simp] theorem State.advance_dig : s.advance.dig = s.dig := by unfold State.advance; split <;> rfl
@[simp] theorem State.advance_port : s.advance.port = s.port := by unfold State.advance; split <;> rfl
@[simp] theorem State.advance_inputs : s.advance.inputs = s.inputs := by unfold State.advance; split <;> rfl

/-! `acceptByte` is the three together (41_feed.md R124, R125, R127). -/

@[simp] theorem State.acceptByte_lh (b : Byte) : (s.acceptByte b).lh = nextLH s.lh s.ll := by simp [State.acceptByte]
@[simp] theorem State.acceptByte_ll (b : Byte) : (s.acceptByte b).ll = nextLL s.ll := by simp [State.acceptByte]
@[simp] theorem State.acceptByte_buf (b : Byte) : (s.acceptByte b).buf = s.buf.write s.idx.val b := by simp [State.acceptByte]
@[simp] theorem State.acceptByte_idx (b : Byte) : (s.acceptByte b).idx = Fin.ofNat 64 (s.idx.val + 1) := by simp [State.acceptByte]
@[simp] theorem State.acceptByte_fin (b : Byte) : (s.acceptByte b).fin = s.fin := by simp [State.acceptByte]
@[simp] theorem State.acceptByte_cor (b : Byte) : (s.acceptByte b).cor = (s.cor || overflows s.lh s.ll) := by simp [State.acceptByte]
@[simp] theorem State.acceptByte_dig (b : Byte) : (s.acceptByte b).dig = s.dig := by simp [State.acceptByte]
@[simp] theorem State.acceptByte_port (b : Byte) : (s.acceptByte b).port = s.port := by simp [State.acceptByte]
@[simp] theorem State.acceptByte_inputs (b : Byte) : (s.acceptByte b).inputs = s.inputs := by simp [State.acceptByte]

theorem State.acceptByte_h (b : Byte) :
    (s.acceptByte b).h = if s.idx.val = 63 then compress s.h (s.buf.write s.idx.val b) else s.h := by
  rw [State.acceptByte, State.advance_h]
  rfl

/-! Updates that follow one another. -/

@[simp] theorem State.respond_respond (a b : Status) (v w : Word) : (s.respond a v).respond b w = s.respond b w := rfl

@[simp] theorem State.setDig_setDig (x y : Words5) : (s.setDig x).setDig y = s.setDig y := rfl

theorem State.raise_eq_respond (a : Status) : s.raise a = s.respond a 0 := rfl

end Sys2Proof.Machine
end

