-- ==== Sys2Proof/Laws/Feed.lean ====
section
/-! SUPPORT. What accepting bytes does: the bit count and its overflow, BUF and IDX, and the byte loop as a fold that a set COR
stops (41_feed.md R124 to R127). -/

namespace Sys2Proof.Machine

/-! ### The bit count -/

theorem State.len_toNat (s : State) : s.len.toNat = s.lh.toNat * 2 ^ 32 + s.ll.toNat := by
  unfold State.len
  rw [BitVec.toNat_append, ← Nat.shiftLeft_add_eq_or_of_lt s.ll.isLt, Nat.shiftLeft_eq]

@[simp] theorem State.len_respond (s : State) (a : Status) (v : Word) : (s.respond a v).len = s.len := rfl

@[simp] theorem State.len_setDig (s : State) (x : Words5) : (s.setDig x).len = s.len := rfl

theorem nextLL_toNat (ll : Word) : (nextLL ll).toNat = (ll.toNat + 8) % 2 ^ 32 := by
  simp [nextLL, BitVec.toNat_add]

/-- With LL a multiple of 8, "LL wraps to zero exactly when it was 0xFFFFFFF8" (R125). -/
theorem nextLL_eq_zero_iff {ll : Word} : nextLL ll = 0 ↔ ll.toNat = 2 ^ 32 - 8 := by
  unfold nextLL
  bv_omega

theorem overflows_iff (lh ll : Word) :
    overflows lh ll = true ↔ ll.toNat = 2 ^ 32 - 8 ∧ lh.toNat = 2 ^ 32 - 1 := by
  have h1 : lh + 1 = 0 ↔ lh.toNat = 2 ^ 32 - 1 := by bv_omega
  simp only [overflows, Bool.and_eq_true, decide_eq_true_eq, nextLL_eq_zero_iff, h1]

/-- A byte overflows LEN exactly when LEN was 2^64 − 8 (R126). -/
theorem State.overflows_iff_len (s : State) : overflows s.lh s.ll = true ↔ s.len.toNat + 8 = 2 ^ 64 := by
  rw [overflows_iff, State.len_toNat]
  have := s.lh.isLt
  have := s.ll.isLt
  omega

/-- LEN after one accepted byte, LL being a multiple of 8 (R125). -/
theorem State.acceptByte_len (s : State) (b : Byte) (h8 : s.ll.toNat % 8 = 0) :
    (s.acceptByte b).len.toNat = (s.len.toNat + 8) % 2 ^ 64 := by
  rw [State.len_toNat, State.len_toNat, State.acceptByte_lh, State.acceptByte_ll, nextLH, nextLL_toNat]
  have := s.lh.isLt
  have := s.ll.isLt
  by_cases h : nextLL s.ll = 0
  · rw [if_pos h]
    rw [nextLL_eq_zero_iff] at h
    have h1 : (s.lh + 1).toNat = (s.lh.toNat + 1) % 2 ^ 32 := by bv_omega
    rw [h1]
    omega
  · rw [if_neg h]
    rw [nextLL_eq_zero_iff] at h
    omega

theorem State.acceptByte_ll_mod (s : State) (b : Byte) (h8 : s.ll.toNat % 8 = 0) :
    (s.acceptByte b).ll.toNat % 8 = 0 := by
  rw [State.acceptByte_ll, nextLL_toNat]
  omega

theorem State.acceptByte_idx_val (s : State) (b : Byte) : (s.acceptByte b).idx.val = (s.idx.val + 1) % 64 := by
  rw [State.acceptByte_idx]
  rfl

/-! ### The byte loop -/

/-- The bytes one after another, a set COR stopping them: what the byte loop leaves, with no regard to where one FEED ends and the
next begins. -/
def absorb : List Byte → State → State
  | [], s => s
  | b :: bs, s => if s.cor then s else absorb bs (s.acceptByte b)

@[simp] theorem absorb_nil (s : State) : absorb [] s = s := rfl

theorem absorb_of_cor {s : State} (h : s.cor = true) (bs : List Byte) : absorb bs s = s := by
  cases bs with
  | nil => rfl
  | cons b bs => simp [absorb, h]

theorem absorb_cons {s : State} (h : s.cor = false) (b : Byte) (bs : List Byte) :
    absorb (b :: bs) s = absorb bs (s.acceptByte b) := by
  simp [absorb, h]

theorem absorb_append (bs cs : List Byte) : ∀ s : State, absorb (bs ++ cs) s = absorb cs (absorb bs s) := by
  induction bs with
  | nil => intro s; rfl
  | cons b bs ih =>
    intro s
    cases h : s.cor with
    | true => rw [absorb_of_cor h, absorb_of_cor h, absorb_of_cor h]
    | false => rw [List.cons_append, absorb_cons h, absorb_cons h, ih]

/-- The byte loop of a FEED leaves what `absorb` leaves. -/
theorem feedBytes_fst (bs : List Byte) : ∀ {s : State}, s.cor = false → (feedBytes bs s).1 = absorb bs s := by
  induction bs with
  | nil => intro s _; rfl
  | cons b bs ih =>
    intro s h
    rw [absorb_cons h, feedBytes]
    cases ho : overflows s.lh s.ll with
    | true =>
      have hc : (s.acceptByte b).cor = true := by simp [ho]
      simp [absorb_of_cor hc]
    | false =>
      have hc : (s.acceptByte b).cor = false := by simp [ho, h]
      simpa using ih hc

theorem absorb_frame (bs : List Byte) : ∀ s : State,
    (absorb bs s).fin = s.fin ∧ (absorb bs s).dig = s.dig ∧ (absorb bs s).port = s.port ∧
      (absorb bs s).inputs = s.inputs := by
  induction bs with
  | nil => intro s; simp
  | cons b bs ih =>
    intro s
    cases h : s.cor with
    | true => simp [absorb_of_cor h]
    | false =>
      rw [absorb_cons h]
      have := ih (s.acceptByte b)
      simpa using this

/-- The port and the host's pins play no part in accepting bytes. -/
theorem State.acceptByte_port_inputs (s : State) (b : Byte) (p : Port) (q : List Pins) :
    State.acceptByte { s with port := p, inputs := q } b = { s.acceptByte b with port := p, inputs := q } := by
  ext1 <;> simp [State.acceptByte_h]

theorem absorb_port_inputs (bs : List Byte) (p : Port) (q : List Pins) : ∀ s : State,
    absorb bs { s with port := p, inputs := q } = { absorb bs s with port := p, inputs := q } := by
  induction bs with
  | nil => intro s; rfl
  | cons b bs ih =>
    intro s
    by_cases h : s.cor = true
    · rw [absorb_of_cor h, absorb_of_cor (by exact h)]
    · rw [Bool.not_eq_true] at h
      rw [absorb_cons h, absorb_cons (by exact h), State.acceptByte_port_inputs, ih]

/-- DIG plays no part in accepting bytes. -/
theorem State.acceptByte_setDig (s : State) (b : Byte) (x : Words5) :
    (s.setDig x).acceptByte b = (s.acceptByte b).setDig x := by
  ext1 <;> simp [State.acceptByte_h]
  rfl

theorem absorb_setDig (bs : List Byte) (x : Words5) : ∀ s : State, absorb bs (s.setDig x) = (absorb bs s).setDig x := by
  induction bs with
  | nil => intro s; rfl
  | cons b bs ih =>
    intro s
    by_cases h : s.cor = true
    · rw [absorb_of_cor h, absorb_of_cor (by exact h)]
    · rw [Bool.not_eq_true] at h
      rw [absorb_cons h, absorb_cons (by exact h), State.acceptByte_setDig, ih]

/-- What the byte loop answers: INPUT_TOO_LONG exactly when it sets COR. -/
theorem feedBytes_snd (bs : List Byte) : ∀ {s : State}, s.cor = false →
    (feedBytes bs s).2 = if (feedBytes bs s).1.cor then .inputTooLong else .success := by
  induction bs with
  | nil => intro s h; simp [feedBytes, h]
  | cons b bs ih =>
    intro s h
    rw [feedBytes]
    cases ho : overflows s.lh s.ll with
    | true => simp [ho]
    | false =>
      have hc : (s.acceptByte b).cor = false := by simp [ho, h]
      simpa using ih hc

/-- The byte loop reaches 2^64 exactly when the bit count says so, LL being a multiple of 8. -/
theorem absorb_cor_iff (bs : List Byte) : ∀ {s : State}, s.cor = false → s.ll.toNat % 8 = 0 →
    ((absorb bs s).cor = true ↔ 2 ^ 64 ≤ s.len.toNat + 8 * bs.length) := by
  induction bs with
  | nil =>
    intro s h _
    have := s.len.isLt
    simp only [absorb_nil, h, List.length_nil, Bool.false_eq_true, false_iff]
    omega
  | cons b bs ih =>
    intro s h h8
    rw [absorb_cons h, List.length_cons]
    have hlen := s.len.isLt
    cases ho : overflows s.lh s.ll with
    | true =>
      have hc : (s.acceptByte b).cor = true := by simp [ho]
      have := s.overflows_iff_len.1 ho
      rw [absorb_of_cor hc]
      simp only [hc, true_iff]
      omega
    | false =>
      have hc : (s.acceptByte b).cor = false := by simp [ho, h]
      have hn : ¬ s.len.toNat + 8 = 2 ^ 64 := fun e => by
        rw [s.overflows_iff_len.2 e] at ho
        cases ho
      have h8n : s.len.toNat % 8 = 0 := by rw [State.len_toNat]; omega
      rw [ih hc (s.acceptByte_ll_mod b h8), s.acceptByte_len b h8, Nat.mod_eq_of_lt (by omega)]
      omega

/-- LEN after bytes that do not overflow it. -/
theorem absorb_len (bs : List Byte) : ∀ {s : State}, s.cor = false → s.ll.toNat % 8 = 0 →
    s.len.toNat + 8 * bs.length < 2 ^ 64 →
    (absorb bs s).len.toNat = s.len.toNat + 8 * bs.length ∧ (absorb bs s).ll.toNat % 8 = 0 ∧ (absorb bs s).cor = false := by
  induction bs with
  | nil => intro s h h8 _; simp [h, h8]
  | cons b bs ih =>
    intro s h h8 hl
    rw [List.length_cons] at hl
    have ho : overflows s.lh s.ll = false := by
      cases ho : overflows s.lh s.ll with
      | true => have := s.overflows_iff_len.1 ho; omega
      | false => rfl
    have hc : (s.acceptByte b).cor = false := by simp [ho, h]
    have hlen : (s.acceptByte b).len.toNat = s.len.toNat + 8 := by
      rw [s.acceptByte_len b h8, Nat.mod_eq_of_lt (by omega)]
    rw [absorb_cons h, List.length_cons]
    have := ih hc (s.acceptByte_ll_mod b h8) (by omega)
    refine ⟨?_, this.2⟩
    rw [this.1, hlen]
    omega

/-- BUF is untouched but at the positions the bytes go to. -/
theorem absorb_read_other (bs : List Byte) : ∀ (s : State) (a : Nat),
    (∀ j, j < bs.length → a ≠ (s.idx.val + j) % 64) → (absorb bs s).buf.read a = s.buf.read a := by
  induction bs with
  | nil => intro s a _; rfl
  | cons b bs ih =>
    intro s a ha
    cases h : s.cor with
    | true => rw [absorb_of_cor h]
    | false =>
      rw [absorb_cons h, ih]
      · have h0 := ha 0 (by simp)
        have hi := s.idx.isLt
        rw [Nat.add_zero, Nat.mod_eq_of_lt hi] at h0
        rw [State.acceptByte_buf, Memory.read_write_other _ _ h0]
      · intro j hj
        have := ha (j + 1) (by simpa using hj)
        rw [State.acceptByte_idx_val]
        omega

theorem Memory.writeBytes_append (bs cs : List Byte) : ∀ (m : Memory) (a : Nat),
    m.writeBytes a (bs ++ cs) = (m.writeBytes a bs).writeBytes (a + bs.length) cs := by
  induction bs with
  | nil => intro m a; rfl
  | cons b bs ih =>
    intro m a
    rw [List.cons_append, Memory.writeBytes_cons, Memory.writeBytes_cons, ih, List.length_cons]
    congr 1
    omega

/-- Byte `j` of bytes that do not overflow LEN stands at position (IDX + j) mod 64 (R124, R127). -/
theorem absorb_read_stored (bs : List Byte) : ∀ {s : State}, s.cor = false → s.ll.toNat % 8 = 0 →
    s.len.toNat + 8 * bs.length < 2 ^ 64 → bs.length ≤ 64 → ∀ j, j < bs.length →
    (absorb bs s).buf.read ((s.idx.val + j) % 64) = bs.getD j 0 := by
  induction bs with
  | nil => intro s _ _ _ _ j hj; simp at hj
  | cons b bs ih =>
    intro s h h8 hl h64 j hj
    rw [List.length_cons] at hl hj h64
    have ho : overflows s.lh s.ll = false := by
      cases ho : overflows s.lh s.ll with
      | true => have := s.overflows_iff_len.1 ho; omega
      | false => rfl
    have hidx := s.acceptByte_idx_val b
    have hlen : (s.acceptByte b).len.toNat = s.len.toNat + 8 := by
      rw [s.acceptByte_len b h8, Nat.mod_eq_of_lt (by omega)]
    rw [absorb_cons h]
    cases j with
    | zero =>
      have hi := s.idx.isLt
      rw [absorb_read_other]
      · rw [Nat.add_zero, Nat.mod_eq_of_lt hi]; simp
      · intro k hk; rw [hidx]; omega
    | succ j =>
      have := ih (s := s.acceptByte b) (by simp [ho, h]) (s.acceptByte_ll_mod b h8) (by omega) (by omega) j (by omega)
      rw [hidx] at this
      rw [show (s.idx.val + (j+1)) % 64 = ((s.idx.val + 1) % 64 + j) % 64 by omega, this]
      simp

/-- IDX after bytes that do not overflow LEN. -/
theorem absorb_idx (bs : List Byte) : ∀ {s : State}, s.cor = false → s.ll.toNat % 8 = 0 →
    s.len.toNat + 8 * bs.length < 2 ^ 64 → (absorb bs s).idx.val = (s.idx.val + bs.length) % 64 := by
  induction bs with
  | nil => intro s _ _ _; have := s.idx.isLt; simp; omega
  | cons b bs ih =>
    intro s h h8 hl
    rw [List.length_cons] at hl
    have ho : overflows s.lh s.ll = false := by
      cases ho : overflows s.lh s.ll with
      | true => have := s.overflows_iff_len.1 ho; omega
      | false => rfl
    have hidx := s.acceptByte_idx_val b
    have hlen : (s.acceptByte b).len.toNat = s.len.toNat + 8 := by
      rw [s.acceptByte_len b h8, Nat.mod_eq_of_lt (by omega)]
    rw [absorb_cons h, ih (s := s.acceptByte b) (by simp [ho, h]) (s.acceptByte_ll_mod b h8) (by omega), hidx, List.length_cons]
    omega

/-- Bytes that neither overflow LEN nor reach the end of the block: they stand in BUF one after another (R124). -/
theorem absorb_fits (bs : List Byte) : ∀ {s : State}, s.cor = false → s.ll.toNat % 8 = 0 →
    s.len.toNat + 8 * bs.length < 2 ^ 64 → s.idx.val + bs.length < 64 →
    (absorb bs s).h = s.h ∧ (absorb bs s).buf = s.buf.writeBytes s.idx.val bs ∧
      (absorb bs s).idx.val = s.idx.val + bs.length := by
  induction bs with
  | nil => intro s _ _ _ _; simp
  | cons b bs ih =>
    intro s h h8 hl hi
    rw [List.length_cons] at hl hi
    have ho : overflows s.lh s.ll = false := by
      cases ho : overflows s.lh s.ll with
      | true => have := s.overflows_iff_len.1 ho; omega
      | false => rfl
    have hidx : (s.acceptByte b).idx.val = s.idx.val + 1 := by
      rw [State.acceptByte_idx_val, Nat.mod_eq_of_lt (by omega)]
    have hn : ¬ s.idx.val = 63 := by omega
    have hlen : (s.acceptByte b).len.toNat = s.len.toNat + 8 := by
      rw [s.acceptByte_len b h8, Nat.mod_eq_of_lt (by omega)]
    have := ih (s := s.acceptByte b) (by simp [ho, h]) (s.acceptByte_ll_mod b h8) (by omega) (by omega)
    rw [absorb_cons h, this.1, this.2.1, this.2.2, hidx, State.acceptByte_h, if_neg hn, State.acceptByte_buf,
      Memory.writeBytes_cons, List.length_cons]
    exact ⟨rfl, rfl, by omega⟩

/-- Bytes that fill the block exactly: the block is compressed and IDX is 0, even when the last byte overflows LEN (R126,
R127). -/
theorem absorb_fills (bs : List Byte) {s : State} (h : s.cor = false) (h8 : s.ll.toNat % 8 = 0)
    (hl : s.len.toNat + 8 * bs.length ≤ 2 ^ 64) (hi : s.idx.val + bs.length = 64) :
    (absorb bs s).h = compress s.h (s.buf.writeBytes s.idx.val bs) ∧
      (absorb bs s).buf = s.buf.writeBytes s.idx.val bs ∧ (absorb bs s).idx = 0 := by
  have hi64 := s.idx.isLt
  rcases List.eq_nil_or_concat bs with rfl | ⟨cs, b, rfl⟩
  · simp only [List.length_nil] at hi
    omega
  · simp only [List.concat_eq_append, List.length_append, List.length_cons, List.length_nil] at hl hi ⊢
    have hf := absorb_fits cs h h8 (by omega) (by omega)
    have hc := (absorb_len cs h h8 (by omega)).2.2
    have h63 : (absorb cs s).idx.val = 63 := by omega
    rw [absorb_append, absorb_cons hc, absorb_nil, State.acceptByte_h, if_pos h63, State.acceptByte_buf, h63, hf.1, hf.2.1,
      Memory.writeBytes_append]
    have : s.idx.val + cs.length = 63 := by omega
    rw [this]
    refine ⟨rfl, rfl, ?_⟩
    rw [State.acceptByte_idx, h63]
    rfl

/-! ### FEED as a whole -/

theorem feedOperand_length {n : BitVec 4} (data : Word) (h : n.toNat ≤ 4) : (feedOperand n data).length = n.toNat := by
  simp only [feedOperand, List.length_take, bytesBe32, List.length_cons, List.length_nil]
  omega

theorem byteOf_shiftLeft (data : Word) {j : Nat} (hj : j < 3) : byteOf (data <<< 8) j = byteOf data (j + 1) := by
  unfold byteOf
  ext i hi
  simp only [BitVec.getElem_extractLsb', BitVec.getLsbD_shiftLeft]
  have h1 : 24 - 8 * j + i < 32 := by omega
  have h2 : ¬ 24 - 8 * j + i < 8 := by omega
  have h3 : 24 - 8 * j + i - 8 = 24 - 8 * (j + 1) + i := by omega
  simp [h1, h2, h3]

/-- The bytes of a FEED of one more byte. -/
theorem feedOperand_succ {n : BitVec 4} (data : Word) (h : n.toNat ≤ 3) :
    feedOperand (n + 1) data = byteOf data 0 :: feedOperand n (data <<< 8) := by
  have hn : (n + 1).toNat = n.toNat + 1 := by bv_omega
  unfold feedOperand bytesBe32
  rw [hn, List.take_succ_cons, byteOf_shiftLeft _ (by omega), byteOf_shiftLeft _ (by omega), byteOf_shiftLeft _ (by omega)]
  have : n.toNat = 0 ∨ n.toNat = 1 ∨ n.toNat = 2 ∨ n.toNat = 3 := by omega
  rcases this with h | h | h | h <;> simp [h]

/-- Byte `j` of a FEED (30_encoding.md R76). -/
theorem feedOperand_getD {n : BitVec 4} (data : Word) (h : n.toNat ≤ 4) {j : Nat} (hj : j < n.toNat) :
    (feedOperand n data).getD j 0 = byteOf data j := by
  have : j = 0 ∨ j = 1 ∨ j = 2 ∨ j = 3 := by omega
  unfold feedOperand bytesBe32
  rw [List.getD_eq_getElem?_getD, List.getElem?_take_of_lt hj]
  rcases this with rfl | rfl | rfl | rfl <;> rfl

theorem feedOperand_zero {n : BitVec 4} (data : Word) (h : n.toNat = 0) : feedOperand n data = [] := by
  simp [feedOperand, h]

/-- A FEED of the opcode map: its next state is what `absorb` leaves (nothing in a finalized engine), with a response. -/
theorem execFeed_next (n : BitVec 4) (data : Word) (s : State) (h : n.toNat ≤ 4) :
    ∃ st, execFeed n data s = .next ((if s.fin then s else absorb (feedOperand n data) s).respond st 0) := by
  unfold execFeed feedLegal
  rw [if_pos h]
  by_cases h0 : n.toNat = 0
  · rw [if_pos h0, feedOperand_zero data h0]
    exact ⟨.success, by simp⟩
  · rw [if_neg h0]
    cases hf : s.fin with
    | true => exact ⟨.stateError, rfl⟩
    | false =>
      cases hc : s.cor with
      | true => exact ⟨.inputTooLong, by simp [absorb_of_cor hc]; rfl⟩
      | false =>
        refine ⟨(feedBytes (feedOperand n data) s).2, ?_⟩
        simp [feedBytes_fst _ hc]

/-- FEED in a state that takes it (41_feed.md R120 past the checks of R121 to R123; with no bytes it is R121). -/
theorem execFeed_accepting (n : BitVec 4) (data : Word) (s : State) (h : n.toNat ≤ 4) (hf : s.fin = false)
    (hc : s.cor = false) :
    execFeed n data s = .next ((absorb (feedOperand n data) s).respond
      (if (absorb (feedOperand n data) s).cor then .inputTooLong else .success) 0) := by
  unfold execFeed feedLegal
  rw [if_pos h]
  by_cases h0 : n.toNat = 0
  · simp [h0, feedOperand_zero data h0, hc]
  · simp [h0, hf, hc, feedBytes_snd _ hc, feedBytes_fst _ hc]

end Sys2Proof.Machine
end

