-- ==== Sys2Proof/Laws/Padding.lean ====
section
/-! SUPPORT. The padded blocks byte by byte (42_result_padding.md R145, R146), and what the padding reads of BUF. -/

namespace Sys2Proof.Machine

theorem bytesBe32_length (w : Word) : (bytesBe32 w).length = 4 := rfl

/-- The last padded block: the block it starts from below `k`, zeros up to 55, the length field from 56 on. -/
theorem read_padFinalBlock (p : Memory) (k : Nat) (lh ll : Word) {a : Nat} (ha : a < 64) :
    (padFinalBlock p k lh ll).read a =
      if a < 56 then (if k ≤ a then 0 else p.read a) else (bytesBe32 lh ++ bytesBe32 ll).getD (a - 56) 0 := by
  unfold padFinalBlock padLength
  rw [Memory.read_writeBytes, Memory.read_writeBytes, Memory.read_zeroFill, bytesBe32_length, bytesBe32_length]
  by_cases h60 : 60 ≤ a
  · have h1 : 60 ≤ a ∧ a < 60 + 4 := by omega
    have h2 : ¬ a < 56 := by omega
    have h3 : a - 60 = a - 56 - (bytesBe32 lh).length := by rw [bytesBe32_length]; omega
    have h4 : (bytesBe32 lh).length ≤ a - 56 := by rw [bytesBe32_length]; omega
    rw [if_pos h1, if_neg h2, h3]
    simp only [List.getD_eq_getElem?_getD, List.getElem?_append_right h4]
  · by_cases h56 : 56 ≤ a
    · have h1 : ¬ (60 ≤ a ∧ a < 60 + 4) := by omega
      have h2 : 56 ≤ a ∧ a < 56 + 4 := by omega
      have h3 : ¬ a < 56 := by omega
      have h4 : a - 56 < (bytesBe32 lh).length := by rw [bytesBe32_length]; omega
      rw [if_neg h1, if_pos h2, if_neg h3]
      simp only [List.getD_eq_getElem?_getD, List.getElem?_append_left h4]
    · have h1 : ¬ (60 ≤ a ∧ a < 60 + 4) := by omega
      have h2 : ¬ (56 ≤ a ∧ a < 56 + 4) := by omega
      have h3 : a < 56 := by omega
      rw [if_neg h1, if_neg h2, if_pos h3]
      by_cases hk : k ≤ a
      · rw [if_pos hk, if_pos (by omega)]
      · rw [if_neg hk, if_neg (by omega)]

theorem read_padMark (buf : Memory) (idx a : Nat) : (padMark buf idx).read a = if a = idx then 0x80 else buf.read a :=
  Memory.read_write buf idx a 0x80

/-- One compression: every byte of the block (R146). -/
theorem read_oneBlock (buf : Memory) (idx : Nat) (lh ll : Word) {a : Nat} (ha : a < 64) (hi : idx < 56) :
    (padFinalBlock (padMark buf idx) (idx + 1) lh ll).read a =
      if a < idx then buf.read a else if a = idx then 0x80 else if a < 56 then 0
      else (bytesBe32 lh ++ bytesBe32 ll).getD (a - 56) 0 := by
  rw [read_padFinalBlock _ _ _ _ ha, read_padMark]
  by_cases h1 : a < idx
  · rw [if_pos (by omega), if_neg (by omega), if_neg (by omega), if_pos h1]
  · by_cases h2 : a = idx
    · rw [if_pos (by omega), if_neg (by omega), if_pos h2, if_neg h1, if_pos h2]
    · by_cases h3 : a < 56
      · rw [if_pos h3, if_pos (by omega), if_neg h1, if_neg h2, if_pos h3]
      · rw [if_neg h3, if_neg h1, if_neg h2, if_neg h3]

/-- Two compressions: every byte of the first block (R146). -/
theorem read_firstOfTwoBlocks (buf : Memory) (idx : Nat) {a : Nat} (ha : a < 64) :
    ((padMark buf idx).zeroFill (idx + 1) 63).read a =
      if a < idx then buf.read a else if a = idx then 0x80 else 0 := by
  rw [Memory.read_zeroFill, read_padMark]
  by_cases h1 : a < idx
  · rw [if_neg (by omega), if_neg (by omega), if_pos h1]
  · by_cases h2 : a = idx
    · rw [if_neg (by omega), if_pos h2, if_neg h1, if_pos h2]
    · rw [if_pos (by omega), if_neg h1, if_neg h2]

/-- Two compressions: every byte of the second block (R146). -/
theorem read_secondOfTwoBlocks (lh ll : Word) {a : Nat} (ha : a < 64) :
    (padFinalBlock Memory.allZero 0 lh ll).read a =
      if a < 56 then 0 else (bytesBe32 lh ++ bytesBe32 ll).getD (a - 56) 0 := by
  rw [read_padFinalBlock _ _ _ _ ha]
  by_cases h : a < 56
  · rw [if_pos h, if_pos h, if_pos (Nat.zero_le _)]
  · rw [if_neg h, if_neg h]

theorem padAndCompress_one {hin : Words5} {lh ll : Word} {buf : Memory} {idx : Nat} (h : idx < 56) :
    padAndCompress hin lh ll buf idx =
      (compress hin (padFinalBlock (padMark buf idx) (idx + 1) lh ll), padFinalBlock (padMark buf idx) (idx + 1) lh ll) := by
  have : ¬ 56 ≤ idx := by omega
  simp [padAndCompress, this]

theorem padAndCompress_two {hin : Words5} {lh ll : Word} {buf : Memory} {idx : Nat} (h : 56 ≤ idx) :
    padAndCompress hin lh ll buf idx =
      (compress (compress hin ((padMark buf idx).zeroFill (idx + 1) 63)) (padFinalBlock Memory.allZero 0 lh ll),
        padFinalBlock Memory.allZero 0 lh ll) := by
  simp [padAndCompress, h]

/-- The digest depends on the bytes of BUF below idx alone. -/
theorem padAndCompress_congr (hin : Words5) (lh ll : Word) {m n : Memory} {idx : Nat}
    (h : ∀ a, a < idx → m.read a = n.read a) :
    (padAndCompress hin lh ll m idx).1 = (padAndCompress hin lh ll n idx).1 := by
  by_cases hi : idx < 56
  · rw [padAndCompress_one hi, padAndCompress_one hi]
    refine compress_congr hin fun a ha => ?_
    rw [read_oneBlock m idx lh ll ha hi, read_oneBlock n idx lh ll ha hi]
    by_cases h1 : a < idx
    · rw [if_pos h1, if_pos h1, h a h1]
    · rw [if_neg h1, if_neg h1]
  · have hfirst : compress hin ((padMark m idx).zeroFill (idx + 1) 63) =
        compress hin ((padMark n idx).zeroFill (idx + 1) 63) := by
      refine compress_congr hin fun a ha => ?_
      rw [read_firstOfTwoBlocks m idx ha, read_firstOfTwoBlocks n idx ha]
      by_cases h1 : a < idx
      · rw [if_pos h1, if_pos h1, h a h1]
      · rw [if_neg h1, if_neg h1]
    rw [padAndCompress_two (by omega), padAndCompress_two (by omega), hfirst]

end Sys2Proof.Machine
end

