-- ==== Sys2Proof/Laws/Exec.lean ====
section
/-! SUPPORT. Everything a command can do, said once (`exec_cases`), and everything a step can do (`step_cases`). -/

namespace Sys2Proof.Machine

/-! The relations of Safety.lean do not see the port or the host's pins. -/

theorem State.sameEngine_port_inputs (s : State) (p : Port) (q : List Pins) :
    s.SameEngine { s with port := p, inputs := q } := ⟨rfl, rfl, rfl, rfl, rfl, rfl, rfl, rfl⟩

theorem State.sameEngine_respond (s : State) (a : Status) (v : Word) : s.SameEngine (s.respond a v) :=
  s.sameEngine_port_inputs _ _

theorem State.SameEngine.symm {s t : State} (h : s.SameEngine t) : t.SameEngine s :=
  ⟨h.h.symm, h.lh.symm, h.ll.symm, h.buf.symm, h.idx.symm, h.fin.symm, h.cor.symm, h.dig.symm⟩

theorem State.SameEngine.trans {s t u : State} (h : s.SameEngine t) (g : t.SameEngine u) : s.SameEngine u :=
  ⟨h.h.trans g.h, h.lh.trans g.lh, h.ll.trans g.ll, h.buf.trans g.buf, h.idx.trans g.idx, h.fin.trans g.fin,
    h.cor.trans g.cor, h.dig.trans g.dig⟩

theorem State.Inv.congr {s t : State} (h : s.SameEngine t) (hs : s.Inv) : t.Inv := by
  obtain ⟨a, b, c, d, e, f⟩ := hs
  obtain ⟨h1, h2, h3, h4, h5, h6, h7, h8⟩ := h
  simp only [h1, h3, h4, h5, h6, h7, h8, State.len, h2] at a b c d e f
  exact ⟨a, b, c, d, e, f⟩

/-- The command answers without touching the engine: when a FEED is empty or turned away, a result command fails, or the command
only reads. -/
def OnlyResponds (i : Instr) (s : State) : Prop :=
  match i with
  | .nop => True
  | .init => False
  | .feed n _ => n.toNat = 0 ∨ 4 < n.toNat ∨ s.fin = true ∨ s.cor = true
  | .peek => s.cor = true
  | .final => s.cor = true
  | .rddig _ => True
  | .rdlen _ => True
  | .rdstat => True
  | .illegal => True

/-- What a command leaves, by cases. In every case the command ends in a next state with a response. -/
inductive ExecCase (i : Instr) (s : State) : State → Prop where
  /-- It only responds: NOP, the reads, FEED 0, ILLEGAL, and every failing command but an overflowing FEED. -/
  | responds (st : Status) (v : Word) : OnlyResponds i s → ExecCase i s (s.respond st v)
  /-- INIT (40_init_nop.md R101). -/
  | clears : i = .init → ExecCase i s (s.clearSession.respond .success 0)
  /-- FEED accepts its bytes (41_feed.md R120). -/
  | feeds (n : BitVec 4) (data : Word) : i = .feed n data → 0 < n.toNat → n.toNat ≤ 4 → s.fin = false → s.cor = false →
      ExecCase i s ((absorb (feedOperand n data) s).respond
        (if (absorb (feedOperand n data) s).cor then .inputTooLong else .success) 0)
  /-- PEEK takes the digest of a padded copy (42_result_padding.md R142, R143). -/
  | peeks : i = .peek → s.cor = false → s.fin = false →
      ExecCase i s ((s.setDig (padAndCompress s.h s.lh s.ll s.buf s.idx.val).1).respond .success 0)
  /-- PEEK or FINAL in a finalized engine copies H (42_result_padding.md R143, R151). -/
  | copies : i = .peek ∨ i = .final → s.cor = false → s.fin = true → ExecCase i s ((s.setDig s.h).respond .success 0)
  /-- FINAL finalizes (42_result_padding.md R152, R153). -/
  | finalizes : i = .final → s.cor = false → s.fin = false →
      ExecCase i s ((s.finalize.setDig s.finalize.h).respond .success 0)

theorem answer_case (i : Instr) (s : State) (hi : OnlyResponds i s) (x : Option Word) : ExecCase i s (s.answer x) := by
  cases x with
  | some v => exact .responds .success v hi
  | none => exact .responds .illegalCmd 0 hi

/-- Every command, in every state, ends in a next state, and it is one of the cases. -/
theorem exec_cases (i : Instr) (s : State) : ∃ t, exec i s = .next t ∧ ExecCase i s t := by
  cases i with
  | nop => exact ⟨_, rfl, .responds .success 0 trivial⟩
  | init => exact ⟨_, rfl, .clears rfl⟩
  | feed n data =>
    by_cases h : n.toNat ≤ 4
    · by_cases h0 : n.toNat = 0
      · refine ⟨s.respond .success 0, ?_, .responds .success 0 (.inl h0)⟩
        simp [exec, execFeed, feedLegal, h0]
      · cases hf : s.fin with
        | true =>
          refine ⟨s.raise .stateError, ?_, .responds .stateError 0 (.inr (.inr (.inl hf)))⟩
          simp [exec, execFeed, feedLegal, h, h0, hf]
        | false =>
          cases hc : s.cor with
          | true =>
            refine ⟨s.raise .inputTooLong, ?_, .responds .inputTooLong 0 (.inr (.inr (.inr hc)))⟩
            simp [exec, execFeed, feedLegal, h, h0, hf, hc]
          | false => exact ⟨_, execFeed_accepting n data s h hf hc, .feeds n data rfl (by omega) h hf hc⟩
    · refine ⟨s.rejectWord, ?_, .responds .illegalCmd 0 (.inr (.inl (by omega)))⟩
      simp [exec, execFeed, h]
  | peek =>
    refine ⟨_, rfl, ?_⟩
    unfold peekState
    cases hc : s.cor with
    | true => exact .responds .inputTooLong 0 hc
    | false =>
      cases hf : s.fin with
      | true => exact .copies (.inl rfl) hc hf
      | false => exact .peeks rfl hc hf
  | final =>
    refine ⟨_, rfl, ?_⟩
    unfold finalState
    cases hc : s.cor with
    | true => exact .responds .inputTooLong 0 hc
    | false =>
      cases hf : s.fin with
      | true => exact .copies (.inr rfl) hc hf
      | false => exact .finalizes rfl hc hf
  | rddig k => exact ⟨_, rfl, answer_case (.rddig k) s trivial _⟩
  | rdlen h => exact ⟨_, rfl, answer_case (.rdlen h) s trivial _⟩
  | rdstat => exact ⟨_, rfl, .responds .success _ trivial⟩
  | illegal => exact ⟨_, rfl, .responds .illegalCmd 0 trivial⟩

/-- The case of a command that is known to have ended in `t`. -/
theorem exec_case {i : Instr} {s t : State} (h : exec i s = .next t) : ExecCase i s t := by
  obtain ⟨u, hu, hc⟩ := exec_cases i s
  rw [h] at hu
  injection hu with hu
  exact hu ▸ hc

/-- The command ends with its response offered, and the host's pins are not its business. -/
theorem ExecCase.port_inputs {i : Instr} {s t : State} (h : ExecCase i s t) :
    (∃ r, t.port = .resp r) ∧ t.inputs = s.inputs := by
  cases h with
  | feeds n data _ _ _ _ _ => exact ⟨⟨_, rfl⟩, (absorb_frame _ s).2.2.2⟩
  | _ => exact ⟨⟨_, rfl⟩, rfl⟩

/-! The port and the host's pins play no part in what a command does, but that its response replaces the port. -/

theorem State.answer_port_inputs (s : State) (x : Option Word) (p : Port) (q : List Pins) :
    State.answer { s with port := p, inputs := q } x = { s.answer x with inputs := q } := by
  cases x <;> rfl

theorem finalize_port_inputs (s : State) (p : Port) (q : List Pins) :
    State.finalize { s with port := p, inputs := q } = { s.finalize with port := p, inputs := q } := by
  ext1 <;> simp

theorem peekState_port_inputs (s : State) (p : Port) (q : List Pins) :
    peekState { s with port := p, inputs := q } = { peekState s with inputs := q } := by
  cases hc : s.cor <;> cases hf : s.fin <;>
    ext1 <;> simp [peekState, State.snapshot, Snapshot.finish, hc, hf]

theorem finalState_port_inputs (s : State) (p : Port) (q : List Pins) :
    finalState { s with port := p, inputs := q } = { finalState s with inputs := q } := by
  cases hc : s.cor <;> cases hf : s.fin <;>
    ext1 <;> simp [finalState, hc, hf]

theorem execFeed_port_inputs (n : BitVec 4) (data : Word) (s : State) (p : Port) (q : List Pins) :
    ∃ t, execFeed n data s = .next t ∧ execFeed n data { s with port := p, inputs := q } = .next { t with inputs := q } := by
  by_cases h : n.toNat ≤ 4 ∧ s.fin = false ∧ s.cor = false
  · refine ⟨_, execFeed_accepting n data s h.1 h.2.1 h.2.2, ?_⟩
    rw [execFeed_accepting n data { s with port := p, inputs := q } h.1 h.2.1 h.2.2]
    rw [absorb_port_inputs]
    rfl
  · refine ⟨_, rfl, ?_⟩
    unfold execFeed
    congr 1
    by_cases h4 : n.toNat ≤ 4 <;> by_cases h0 : n.toNat = 0 <;> cases hf : s.fin <;> cases hc : s.cor <;>
      simp [h4, hf, hc] at h <;> ext1 <;> simp [feedLegal, h4, h0, hf, hc]

/-- A command's effect and its response do not depend on the port it finds or on the host's pins. -/
theorem exec_port_inputs (i : Instr) (p : Port) (q : List Pins) {s t : State} (h : exec i s = .next t) :
    exec i { s with port := p, inputs := q } = .next { t with inputs := q } := by
  cases i with
  | feed n data =>
    obtain ⟨u, hu, hv⟩ := execFeed_port_inputs n data s p q
    have : Host.Outcome.next u = .next t := hu.symm.trans h
    injection this with this
    exact this ▸ hv
  | peek => injection h with h; exact h ▸ congrArg _ (peekState_port_inputs s p q)
  | final => injection h with h; exact h ▸ congrArg _ (finalState_port_inputs s p q)
  | rddig k => injection h with h; exact h ▸ congrArg _ (State.answer_port_inputs s (wordAt s.dig k.toNat) p q)
  | rdlen k => injection h with h; exact h ▸ congrArg _ (State.answer_port_inputs s (lenHalf s k) p q)
  | _ => injection h with h; exact h ▸ rfl

theorem State.SameEngine.eq_with {s e : State} (h : s.SameEngine e) : s = { e with port := s.port, inputs := s.inputs } := by
  obtain ⟨h1, h2, h3, h4, h5, h6, h7, h8⟩ := h
  ext1 <;> simp [*]

/-- A command gives engines that agree the same effect and the same response. -/
theorem exec_sameEngine (i : Instr) {s e t u : State} (h : s.SameEngine e) (ht : exec i s = .next t)
    (hu : exec i e = .next u) :
    t.SameEngine u ∧ t.port = u.port := by
  have := exec_port_inputs i s.port s.inputs hu
  rw [← h.eq_with, ht] at this
  injection this with this
  subst this
  exact ⟨⟨rfl, rfl, rfl, rfl, rfl, rfl, rfl, rfl⟩, rfl⟩

/-- What one clock edge does, by the port state it finds (70_reset_and_hazards.md R260, R265). -/
inductive StepCase (s : State) : State → Prop where
  | rst : s.nextPins.rst = true → StepCase s { State.reset with inputs := s.inputs.tail }
  /-- IDLE with no command, RESP not taken, or power-on with no command: nothing but the pins moves. -/
  | waits : s.nextPins.rst = false → StepCase s { s with inputs := s.inputs.tail }
  | accepts : s.nextPins.rst = false → s.port = .idle → s.nextPins.cmdValid = true →
      StepCase s { s with port := .exec s.nextPins.cmdWord (s.latency (decode s.nextPins.cmdWord) - 1), inputs := s.inputs.tail }
  | counts (w : CmdWord) (more : Nat) : s.nextPins.rst = false → s.port = .exec w (more + 1) →
      StepCase s { s with port := .exec w more, inputs := s.inputs.tail }
  | runs (w : CmdWord) (t : State) : s.nextPins.rst = false → s.port = .exec w 0 →
      ExecCase (decode w) { s with inputs := s.inputs.tail } t → StepCase s t
  | delivers (r : Response) : s.nextPins.rst = false → s.port = .resp r → s.nextPins.rspReady = true →
      StepCase s { s with port := .idle, inputs := s.inputs.tail }

theorem takePins_eq (s : State) : s.takePins = { s with inputs := s.inputs.tail } := rfl

theorem latency_takePins (s : State) (i : Instr) : s.takePins.latency i = s.latency i := by
  cases i <;> rfl

/-- Everything a step that goes on can have done. -/
theorem step_cases {s t : State} (h : step s = .next t) : StepCase s t := by
  unfold step clockEdge at h
  by_cases hr : s.nextPins.rst = true
  · rw [if_pos hr] at h
    injection h with h
    exact h ▸ .rst hr
  · rw [if_neg hr] at h
    rw [Bool.not_eq_true] at hr
    rw [State.takePins_port] at h
    cases hp : s.port with
    | powerUp =>
      rw [hp] at h
      by_cases hv : s.nextPins.cmdValid = true
      · simp [hv] at h
      · simp only [hv] at h
        injection h with h
        exact h ▸ .waits hr
    | idle =>
      rw [hp] at h
      injection h with h
      by_cases hv : s.nextPins.cmdValid = true
      · rw [if_pos hv] at h
        exact h ▸ .accepts hr hp hv
      · rw [if_neg hv] at h
        exact h ▸ .waits hr
    | exec w more =>
      rw [hp] at h
      cases more with
      | zero => exact .runs w t hr hp (exec_case h)
      | succ more =>
        injection h with h
        exact h ▸ .counts w more hr hp
    | resp r =>
      rw [hp] at h
      injection h with h
      by_cases hv : s.nextPins.rspReady = true
      · rw [if_pos hv] at h
        exact h ▸ .delivers r hr hp hv
      · rw [if_neg hv] at h
        exact h ▸ .waits hr

/-- A run takes its first step and goes on from there. -/
theorem host_run_succ (M : Host.Core) (k : Nat) (s : M.State) : M.run (k + 1) s =
    match M.step s with
    | .next t => M.run k t
    | .fault r => .fault r
    | .refused r => .refused r := rfl

theorem core_run_next {k : Nat} {s t : State} (h : step s = .next t) :
    Host.Core.run Sys2Proof.core (k + 1) s = Host.Core.run Sys2Proof.core k t := by
  have h : Sys2Proof.core.step s = .next t := h
  have e := host_run_succ Sys2Proof.core k s
  rw [h] at e
  exact e

theorem core_run_zero (s : State) : Host.Core.run Sys2Proof.core 0 s = .next s := rfl

theorem latency_pos (s : State) (i : Instr) : 0 < s.latency i := by
  cases i <;> exact Nat.succ_pos _

theorem latency_port_inputs (s : State) (i : Instr) (p : Port) (q : List Pins) :
    State.latency { s with port := p, inputs := q } i = s.latency i := by
  cases i <;> rfl

end Sys2Proof.Machine
end

