-- ==== Sys2Proof/Laws/PerInstr.lean ====
section
/-! SUPPORT. Per command: the word `encode` gives holds the command's opcode, argument and data in the fields of
30_encoding.md R70. -/

namespace Sys2Proof.Laws.EncodesItsFields

/-- OP, ARG and DATA of the command's word. -/
def Statement (i : Instr) : Prop :=
  opField (encode i) = i.opcode ∧ argField (encode i) = i.arg ∧ dataField (encode i) = i.dataBits

/-- The fields of a packed word, whatever they hold. -/
theorem fields_packFields (op arg : BitVec 4) (data : Word) :
    opField (packFields op arg data) = op ∧ argField (packFields op arg data) = arg ∧
      dataField (packFields op arg data) = data := by
  refine ⟨?_, ?_, ?_⟩ <;> apply BitVec.eq_of_getLsbD_eq <;> intro k hk
  · simp only [opField, packFields, BitVec.getLsbD_extractLsb', BitVec.getLsbD_append]
    simp [hk, show ¬ 36 + k < 32 by omega, show ¬ 36 + k - 32 < 4 by omega, show 36 + k - 32 - 4 = k by omega]
  · simp only [argField, packFields, BitVec.getLsbD_extractLsb', BitVec.getLsbD_append]
    simp [hk]
  · simp only [dataField, packFields, BitVec.getLsbD_extractLsb', BitVec.getLsbD_append]
    simp [hk]

theorem nop : Statement .nop := fields_packFields _ _ _
theorem init : Statement .init := fields_packFields _ _ _
theorem feed (n : BitVec 4) (data : Word) : Statement (.feed n data) := fields_packFields _ _ _
theorem peek : Statement .peek := fields_packFields _ _ _
theorem final : Statement .final := fields_packFields _ _ _
theorem rddig (i : BitVec 4) : Statement (.rddig i) := fields_packFields _ _ _
theorem rdlen (h : BitVec 4) : Statement (.rdlen h) := fields_packFields _ _ _
theorem rdstat : Statement .rdstat := fields_packFields _ _ _
theorem illegal : Statement .illegal := fields_packFields _ _ _

end Sys2Proof.Laws.EncodesItsFields
end

