-- ==== Sys2Proof/Tests/Slice0.lean ====
section
/-! SUPPORT. Tests. Every expected value is written out from spec/ (95_test_vectors.md and the worked examples the rules give),
none from a run of this model. -/

namespace Sys2Proof.Tests

open Sys2Proof.Machine

/-! WellFormed refuses an operand outside each legal range (30_encoding.md R73). -/

theorem test_wellFormed_feed_refuses_5 : (Instr.feed 5 0).WellFormed = false := by decide
theorem test_wellFormed_feed_takes_4 : (Instr.feed 4 0).WellFormed = true := by decide
theorem test_wellFormed_rddig_refuses_5 : (Instr.rddig 5).WellFormed = false := by decide
theorem test_wellFormed_rddig_takes_4 : (Instr.rddig 4).WellFormed = true := by decide
theorem test_wellFormed_rdlen_refuses_2 : (Instr.rdlen 2).WellFormed = false := by decide
theorem test_wellFormed_rdlen_takes_1 : (Instr.rdlen 1).WellFormed = true := by decide

/-! Decoding: OP, ARG and DATA written out bit by bit (30_encoding.md R70, R73). -/

theorem test_decode_nop : decode 0b0000_0000_00000000000000000000000000000000#40 = .nop := by decide
theorem test_decode_init : decode 0b0001_0000_00000000000000000000000000000000#40 = .init := by decide
theorem test_decode_feed : decode 0b0010_0011_01100001011000100110001100000000#40 = .feed 3 0x61626300 := by decide
theorem test_decode_peek : decode 0b0011_0000_00000000000000000000000000000000#40 = .peek := by decide
theorem test_decode_final : decode 0b0100_0000_00000000000000000000000000000000#40 = .final := by decide
theorem test_decode_rddig : decode 0b0101_0100_00000000000000000000000000000000#40 = .rddig 4 := by decide
theorem test_decode_rdlen : decode 0b0110_0001_00000000000000000000000000000000#40 = .rdlen 1 := by decide
theorem test_decode_rdstat : decode 0b0111_0000_00000000000000000000000000000000#40 = .rdstat := by decide
theorem test_decode_illegal : decode 0b1000_0000_00000000000000000000000000000000#40 = .illegal := by decide
theorem test_decode_data_ignored : decode 0b0000_0000_11111111111111111111111111111111#40 = .nop := by decide

/-- 95_test_vectors.md section 2.4, ILLEGAL, and the ARG rows of the other families. -/
theorem test_decode_illegal_words :
    ([0x8000000000, 0xFFFFFFFFFF, 0x0100000000, 0x1100000000, 0x2561626364, 0x2500000000, 0x3100000000, 0x5500000000,
      0x6200000000, 0x7100000000] : List CmdWord).all (fun w => decide (decode w = .illegal)) = true := by decide +kernel

theorem test_decodeTableWord : decodeTableWord 40 0x2461626364 = some (.feed 4 0x61626364) := by decide
theorem test_decodeTableWord_too_long : decodeTableWord 48 0x2461626364 = none := by decide
theorem test_decodeBits_names_the_error : (match decodeBits 48 0 with | .error e => some e | .ok _ => none) =
    some .longerThanAWord := by decide

/-- 30_encoding.md R81. -/
theorem test_encode_R81 :
    ([.nop, .init, .feed 3 0x61626300, .feed 0 0, .feed 1 0x80000000, .feed 4 0x61626364, .peek, .final, .rddig 4, .rdlen 1,
      .rdstat] : List Instr).map encode =
    [0x0000000000, 0x1000000000, 0x2361626300, 0x2000000000, 0x2180000000, 0x2461626364, 0x3000000000, 0x4000000000,
      0x5400000000, 0x6100000000, 0x7000000000] := by decide +kernel

/-! The assembler (30_encoding.md R79, R80, R81). -/

theorem test_assemble_feed : assembleText "FEED 3, 0x61626300 ; abc".toList = some [.feed 3 0x61626300] := by decide +kernel
theorem test_assemble_feedb : assembleText "FEEDB 0x80".toList = some [.feed 1 0x80000000] := by decide +kernel
theorem test_assemble_feeds : assembleText ['F', 'E', 'E', 'D', 'S', ' ', quoteChar, 'a', 'b', 'c', 'd', ';', quoteChar] =
    some [.feed 4 0x61626364, .feed 1 0x3B000000] := by decide +kernel
theorem test_assemble_getbits : assembleText "GETBITS".toList = some [.rdlen 0, .rdlen 1] := by decide +kernel
theorem test_assemble_rejects : ["FEED 5, 0", "RDDIG 5", "RDLEN 2", "FEEDW 0x100000000", "HALT"].all
    (fun l => (assembleText l.toList).isNone) = true := by decide +kernel

/-! Primitives (95_test_vectors.md section 2.1). -/

theorem test_rotl : rotl 0x80000001 1 = 0x00000003 ∧ rotl 0x12345678 5 = 0x468ACF02 ∧ rotl 0x12345678 30 = 0x048D159E := by
  decide
theorem test_roundFunction :
    [0, 20, 40, 60].map (fun t => roundFunction t 0xF0F0F0F0 0xFF00FF00 0x0FF00FF0) =
      [0xFF00FF00, 0x00000000, 0xFFF0FFF0, 0x00000000] := by decide +kernel

/-! Compression and padding (95_test_vectors.md sections 2.2 and 2.3). -/

theorem test_compress_zero_block :
    compress iv Memory.allZero = ⟨0x92B404E5, 0x56588CED, 0x6C1ACD4E, 0xBF053F68, 0x09F73A93⟩ := by decide +kernel
theorem test_compress_ff_block :
    compress iv (Memory.allZero.writeBytes 0 (List.replicate 64 0xFF)) =
      ⟨0xBAFBC2C8, 0x7C333226, 0x03F38E06, 0xC3E0F79C, 0x1F1B1475⟩ := by decide +kernel
theorem test_round_trace : compressRounds 0 ((schedule (0x61626380 :: List.replicate 14 0 ++ [0x18])).take 40)
    ⟨iv.w0, iv.w1, iv.w2, iv.w3, iv.w4⟩ = ⟨0x32DE1CBA, 0x4C986405, 0xF718E5CF, 0x03D447F6, 0xF72EEC32⟩ := by decide +kernel

/-- The state a command sequence leaves, if it runs through. -/
def after (is : List Instr) (s : State) : Option State :=
  match runCommands is s with
  | .next t => some t
  | .fault _ => none
  | .refused _ => none

/-- L bytes 0x61, one FEED each. -/
def feedA (l : Nat) : List Instr := List.replicate l (.feed 1 0x61000000)

theorem test_padding_55_one_block : (after (feedA 55 ++ [.peek]) State.reset).map State.dig =
    some ⟨0xC1C8BBDC, 0x22796E28, 0xC0E15163, 0xD20899B6, 0x5621D65A⟩ := by decide +kernel
theorem test_padding_56_two_blocks : (after (feedA 56 ++ [.final]) State.reset).map State.dig =
    some ⟨0xC2DB330F, 0x6083854C, 0x99D4B5BF, 0xB6E8F29F, 0x201BE699⟩ := by decide +kernel
theorem test_sha1_119 : sha1 (List.replicate 119 0x61) =
    ⟨0xEE971065, 0xAAA017E0, 0x632A8CA6, 0xC77BB3BF, 0x8B1DFC56⟩ := by decide +kernel

/-! Commands (95_test_vectors.md section 2.4). -/

/-- The state after "abc" has been fed to a fresh engine. -/
def fedAbc : State :=
  { State.reset with buf := ⟨[(0, 0x61), (1, 0x62), (2, 0x63)]⟩, idx := 3, ll := 0x18, port := .resp ⟨.success, 0⟩ }

/-- Program P4's constructed start: two bytes before the 2^64-bit ceiling. -/
def nearCeiling : State := { State.reset with lh := 0xFFFFFFFF, ll := 0xFFFFFFF0, idx := 62 }

/-- The digest of "abc". -/
def abcDigest : Words5 := ⟨0xA9993E36, 0x4706816A, 0xBA3E2571, 0x7850C26C, 0x9CD0D89D⟩

theorem test_feed_abc : after [.feed 3 0x61626300] State.reset = some fedAbc := by decide +kernel
theorem test_feed_across_a_block : (after (feedA 62 ++ [.feed 4 0x62636465]) State.reset).map
    (fun t => (t.h, t.idx, t.buf.read 0, t.buf.read 1, t.ll)) =
    some (⟨0x95F83CE1, 0x472A21DB, 0x8A6DCE41, 0x45A4587E, 0x116C0E7B⟩, 2, 0x64, 0x65, 0x210) := by decide +kernel
theorem test_feed_overflow : (after [.feed 4 0x41424344] nearCeiling).map
    (fun t => (t.h, t.len, t.idx, t.cor, t.response)) =
    some (⟨0x5D50FB2C, 0x7EB76F93, 0xBBAA63C4, 0xB5FCDF64, 0xBDE9E942⟩, 0, 0, true, some ⟨.inputTooLong, 0⟩) := by
  decide +kernel
/-- 95_test_vectors.md section 2.4, FEED row 10: the carry from LL into LH, without overflow. -/
def beforeCarry : State := { State.reset with ll := 0xFFFFFFF8, idx := 63 }
theorem test_feed_carry : (after [.feed 1 0x41000000] beforeCarry).map
    (fun t => (t.len, t.idx, t.cor, t.response, t.h != iv)) =
    some (0x100000000, 0, false, some ⟨.success, 0⟩, true) := by decide +kernel
theorem test_peek_abc : after [.peek] fedAbc = some { fedAbc with dig := abcDigest } := by decide +kernel
theorem test_final_fresh : (after [.final] State.reset).map (fun t => (t.h, t.fin, t.dig == t.h)) =
    some (⟨0xDA39A3EE, 0x5E6B4B0D, 0x3255BFEF, 0x95601890, 0xAFD80709⟩, true, true) := by decide +kernel
theorem test_final_twice : (after [.final, .final] fedAbc).map State.dig = some abcDigest := by decide +kernel
theorem test_init_after_overflow : (after [.feed 4 0x41424344, .init, .peek, .rddig 0] nearCeiling).map State.response =
    some (some ⟨.success, 0xDA39A3EE⟩) := by decide +kernel
theorem test_rddig : (after [.rddig 4] { fedAbc with dig := abcDigest }).map State.response =
    some (some ⟨.success, 0x9CD0D89D⟩) := by decide +kernel
theorem test_rdlen_high : (after [.rdlen 1] { State.reset with lh := 1 }).map State.response =
    some (some ⟨.success, 1⟩) := by decide +kernel
theorem test_rdstat : (after [.rdstat] fedAbc).map State.response = some (some ⟨.success, 0x300⟩) := by decide +kernel
theorem test_illegal : after [.illegal] fedAbc = some { fedAbc with port := .resp ⟨.illegalCmd, 0⟩ } := by decide +kernel
theorem test_nop_corrupted : (after [.nop] { State.reset with cor := true }).map State.response =
    some (some ⟨.success, 0⟩) := by decide +kernel
theorem test_serialize : serialize abcDigest = [0xA9, 0x99, 0x3E, 0x36, 0x47, 0x06, 0x81, 0x6A, 0xBA, 0x3E, 0x25, 0x71, 0x78,
    0x50, 0xC2, 0x6C, 0x9C, 0xD0, 0xD8, 0x9D] := by decide +kernel

/-! The port (70_reset_and_hazards.md R260, R261, R265). -/

/-- The state one step leaves, if it has one. -/
def afterStep (s : State) : Option State :=
  match step s with
  | .next t => some t
  | .fault _ => none
  | .refused _ => none

theorem test_step_runs_a_placed_word : (afterStep (State.reset.withFetchWord 40 0x3000000000)).map
    (fun t => (t.dig.w0, t.port)) = some (0xDA39A3EE, .resp ⟨.success, 0⟩) := by decide +kernel
theorem test_step_rst_abandons : afterStep { fedAbc with port := .exec 0x3000000000 0, inputs := [⟨true, false, 0, true⟩] } =
    some State.reset := by decide +kernel
theorem test_step_delivers : (afterStep { fedAbc with inputs := [⟨false, true, 0x3000000000, true⟩] }).map State.port =
    some .idle := by decide +kernel
theorem test_step_before_reset : (match step { State.reset with port := .powerUp, inputs := [⟨false, true, 0, false⟩] } with
    | .refused r => some r | _ => none) = some .commandBeforeReset := by decide +kernel
theorem test_response_word : (Response.mk .stateError 0x12345678).word = 0x312345678 := by decide

/-! ### Witnesses

For each statement that has hypotheses, a concrete state and operands that meet them; for a statement with several clauses, one
for each, at a boundary of its range. -/

/-- A finalized engine, and a corrupted one. -/
def finalized : State := { State.reset with h := abcDigest, dig := abcDigest, fin := true }
def corrupted : State := { State.reset with cor := true }

/-- One byte before a full block. -/
def lastOfBlock : State := { State.reset with idx := 63, ll := 0x1F8, buf := ⟨[(62, 0x61)]⟩ }

theorem fedAbc_inv : fedAbc.Inv := ⟨by decide, by decide, by decide, by decide, by decide, by decide⟩
theorem nearCeiling_inv : nearCeiling.Inv := ⟨by decide, by decide, by decide, by decide, by decide, by decide⟩
theorem finalized_inv : finalized.Inv :=
  ⟨by decide, by decide, by decide, by decide, by decide, fun _ => ⟨by decide, by decide, fun _ _ => rfl, rfl⟩⟩
theorem corrupted_inv : corrupted.Inv := ⟨by decide, by decide, by decide, by decide, by decide, by decide⟩

/-- A reset edge and an edge with a command. -/
def rstPins : Pins := ⟨true, true, 0x3000000000, true⟩
def peekPins : Pins := ⟨false, true, 0x3000000000, true⟩

theorem witness_rst_edge : rstPins.rst = true := rfl
theorem witness_FeedFails :
    (finalized.fin = true ∧ 0 < (1#4).toNat ∧ (1#4).toNat ≤ 4) ∧
    (corrupted.fin = false ∧ corrupted.cor = true ∧ 0 < (4#4).toNat ∧ (4#4).toNat ≤ 4) := by decide
theorem witness_FeedStoresAndCountsOneByte :
    (fedAbc.fin = false ∧ fedAbc.cor = false ∧ fedAbc.idx.val < 63 ∧ fedAbc.len.toNat + 8 < 2 ^ 64) ∧
    (nearCeiling.idx.val = 62 ∧ nearCeiling.len.toNat + 8 < 2 ^ 64) := by decide
/-- The carry clause of FeedStoresAndCountsOneByte and of FeedCompressesAFullBlock: LL wraps to 0 and LH does not. -/
theorem witness_Feed_carry :
    (∃ t, exec (.feed 1 0x41000000) { beforeCarry with idx := 62 } = .next t ∧ t.ll = 0 ∧ t.lh = 1 ∧ t.idx = 63) ∧
    (beforeCarry.fin = false ∧ beforeCarry.cor = false ∧ beforeCarry.idx.val = 63 ∧ beforeCarry.len.toNat + 8 < 2 ^ 64) ∧
    (∃ t, exec (.feed 1 0x41000000) beforeCarry = .next t ∧ t.ll = 0 ∧ t.lh = 1 ∧ t.idx = 0) :=
  ⟨⟨_, rfl, by decide⟩, by decide, ⟨_, rfl, by decide +kernel⟩⟩
theorem witness_FeedCompressesAFullBlock : lastOfBlock.fin = false ∧ lastOfBlock.cor = false ∧ lastOfBlock.idx.val = 63 ∧
    lastOfBlock.len.toNat + 8 < 2 ^ 64 := by decide
theorem witness_FeedWorksByteByByte :
    (∃ t, exec (.feed 1 0x41424344) fedAbc = .next t ∧ t.response = some ⟨.success, 0⟩) ∧
    (∃ t, exec (.feed 1 0x41424344) corrupted = .next t ∧ t.response ≠ some ⟨.success, 0⟩) ∧
    0 < (3#4).toNat ∧ (3#4).toNat ≤ 3 :=
  ⟨⟨_, rfl, by decide +kernel⟩, ⟨_, rfl, by decide +kernel⟩, by decide⟩
theorem witness_FeedCompletes :
    lastOfBlock.fin = false ∧ lastOfBlock.cor = false ∧ lastOfBlock.ll.toNat % 8 = 0 ∧ (4#4).toNat ≤ 4 ∧
    lastOfBlock.len.toNat + 8 * (4#4).toNat < 2 ^ 64 ∧ 64 ≤ lastOfBlock.idx.val + (1#4).toNat ∧
    fedAbc.idx.val + (4#4).toNat < 64 := by decide
theorem witness_FeedOverflowCorrupts : nearCeiling.Inv ∧ nearCeiling.fin = false ∧ nearCeiling.cor = false ∧
    (4#4).toNat ≤ 4 ∧ 1 < (4#4).toNat ∧ nearCeiling.len.toNat + 8 * (1 + 1) = 2 ^ 64 :=
  ⟨nearCeiling_inv, by decide⟩
theorem witness_exec_feed : ∃ t, exec (.feed 4 0x41424344) lastOfBlock = .next t := ⟨_, rfl⟩
theorem witness_exec_peek : ∃ t, exec .peek fedAbc = .next t := ⟨_, rfl⟩

/-- The padded block of "abc" (43_compression.md R182), its schedule, and working variables that follow the rounds' equations. -/
def abcBlock : Memory := ⟨[(0, 0x61), (1, 0x62), (2, 0x63), (3, 0x80), (63, 0x18)]⟩
def abcW (t : Nat) : Word := (schedule (blockWords abcBlock)).getD t 0
def abcV : Nat → Working
  | 0 => ⟨iv.w0, iv.w1, iv.w2, iv.w3, iv.w4⟩
  | t + 1 =>
    ⟨(abcV t).a.rotateLeft 5 +
        (if t < 20 then ((abcV t).b &&& (abcV t).c) ||| (~~~(abcV t).b &&& (abcV t).d)
         else if t < 40 then (abcV t).b ^^^ (abcV t).c ^^^ (abcV t).d
         else if t < 60 then ((abcV t).b &&& (abcV t).c) ||| ((abcV t).b &&& (abcV t).d) ||| ((abcV t).c &&& (abcV t).d)
         else (abcV t).b ^^^ (abcV t).c ^^^ (abcV t).d) +
        (abcV t).e + abcW t +
        (if t < 20 then 0x5A827999 else if t < 40 then 0x6ED9EBA1 else if t < 60 then 0x8F1BBCDC else 0xCA62C1D6),
      (abcV t).a, (abcV t).b.rotateLeft 30, (abcV t).c, (abcV t).d⟩

theorem witness_CompressFollowsTheRounds_first :
    ∀ t, t < 16 → abcW t = abcBlock.read (4 * t) ++ abcBlock.read (4 * t + 1) ++ abcBlock.read (4 * t + 2) ++
      abcBlock.read (4 * t + 3) := by decide +kernel
theorem witness_CompressFollowsTheRounds_later :
    ∀ t, t < 80 → 16 ≤ t → abcW t = (abcW (t - 3) ^^^ abcW (t - 8) ^^^ abcW (t - 14) ^^^ abcW (t - 16)).rotateLeft 1 := by
  decide +kernel
theorem witness_CompressFollowsTheRounds_rounds : abcV 0 = ⟨iv.w0, iv.w1, iv.w2, iv.w3, iv.w4⟩ ∧ ∀ t, abcV (t + 1) =
    ⟨(abcV t).a.rotateLeft 5 +
        (if t < 20 then ((abcV t).b &&& (abcV t).c) ||| (~~~(abcV t).b &&& (abcV t).d)
         else if t < 40 then (abcV t).b ^^^ (abcV t).c ^^^ (abcV t).d
         else if t < 60 then ((abcV t).b &&& (abcV t).c) ||| ((abcV t).b &&& (abcV t).d) ||| ((abcV t).c &&& (abcV t).d)
         else (abcV t).b ^^^ (abcV t).c ^^^ (abcV t).d) +
        (abcV t).e + abcW t +
        (if t < 20 then 0x5A827999 else if t < 40 then 0x6ED9EBA1 else if t < 60 then 0x8F1BBCDC else 0xCA62C1D6),
      (abcV t).a, (abcV t).b.rotateLeft 30, (abcV t).c, (abcV t).d⟩ := ⟨rfl, fun _ => rfl⟩
theorem witness_RoundFunctionsAtTheirCorners : 19 < 20 ∧ 79 < 80 ∧ 40 ≤ 40 ∧ 59 < 60 := by decide

theorem witness_Padding : 0 < 56 ∧ 55 < 56 ∧ 56 ≤ 56 ∧ 56 ≤ 63 ∧ 63 < 64 := by decide
theorem witness_Peek_and_Final : corrupted.cor = true ∧ (finalized.cor = false ∧ finalized.fin = true) ∧
    (fedAbc.cor = false ∧ fedAbc.fin = false) := by decide
theorem witness_RdlenPairIsConsistent : ∀ i ∈ [Instr.peek, .rdstat, .rddig 4, .nop, .illegal], keepsLen i = true := by decide
theorem witness_Serializer : 4 < 5 ∧ 3 < 4 := by decide
theorem witness_OperandOutOfRange : [Instr.feed 5 0, .feed 15 0, .rddig 5, .rdlen 2].all (fun i => !i.WellFormed) = true := by
  decide
/-- One word at the highest legal ARG of each opcode, and one at the first ARG that is not legal. -/
theorem witness_DecodeFollowsTheOpcodeMap :
    ([0x0000000000, 0x1000000000, 0x2400000000, 0x3000000000, 0x4000000000, 0x5400000000, 0x6100000000, 0x7000000000] :
      List CmdWord).all (fun w => decide (decode w ≠ .illegal)) = true ∧
    ([0x0100000000, 0x1100000000, 0x2500000000, 0x3100000000, 0x4100000000, 0x5500000000, 0x6200000000, 0x7100000000,
      0x8000000000] : List CmdWord).all (fun w => decide (decode w = .illegal)) = true := by decide +kernel
theorem witness_IgnoredDataBits :
    ((0x3012345678#40).extractLsb' 32 8 = (0x3087654321#40).extractLsb' 32 8 ∧ (0x3012345678#40).extractLsb' 36 4 ≠ 2#4) ∧
    (∀ j, j < (1#4).toNat → ((0x61FFFFFF#32).extractLsb' (24 - 8 * j) 8 : Byte) = (0x61000000#32).extractLsb' (24 - 8 * j) 8) := by
  decide
theorem witness_DecodeOfEncode : [Instr.nop, .init, .feed 0 0, .feed 4 0xFFFFFFFF, .peek, .final, .rddig 0, .rddig 4, .rdlen 0,
    .rdlen 1, .rdstat, .illegal].all Instr.WellFormed = true := by decide
theorem witness_EncodeOfDecode : decode 0x2461626364 ≠ .illegal ∧ (0x2461626364#40).extractLsb' 36 4 = 2#4 := by decide
theorem witness_ResponseWord : (Response.mk .success 1).status = .success ∧ (Response.mk .inputTooLong 0).status = .inputTooLong ∧
    (Response.mk .stateError 0).status = .stateError ∧ (Response.mk .illegalCmd 0).status ≠ .nullPointer := by decide
theorem witness_AssembledCommands : AsmLine.assemble (.feed 4 0xFFFFFFFF) = some [.feed 4 0xFFFFFFFF] ∧
    Instr.feed 4 0xFFFFFFFF ∈ [Instr.feed 4 0xFFFFFFFF] := by decide
theorem witness_FeedsSpellsItsString : Instr.feed 1 0x61000000 ∈ expandFeeds [0x61] := by decide
theorem witness_StatusFollowsThePriority : (Instr.feed 4 0).WellFormed = true ∧ nearCeiling.ll.toNat % 8 = 0 ∧
    nearCeiling.reachesCeiling 4 = true ∧ nearCeiling.reachesCeiling 1 = false := by decide
theorem witness_FailingCommands :
    (∃ t, exec .peek corrupted = .next t ∧ t.response = some ⟨.inputTooLong, 0⟩) ∧
    (∃ t, exec (.feed 1 0) finalized = .next t ∧ t.response = some ⟨.stateError, 0⟩) ∧
    (∃ t, exec .illegal corrupted = .next t ∧ t.response = some ⟨.illegalCmd, 0⟩) ∧
    (∃ t, exec (.rddig 4) finalized = .next t ∧ t.response = some ⟨.success, 0x9CD0D89D⟩) :=
  ⟨⟨_, rfl, by decide⟩, ⟨_, rfl, by decide⟩, ⟨_, rfl, by decide⟩, ⟨_, rfl, by decide⟩⟩
theorem witness_EveryReachableState :
    ∃ t, Host.Core.run Sys2Proof.core 1 { State.reset with inputs := [peekPins] } = .next t := ⟨_, rfl⟩
theorem witness_CorruptionIsSticky_cleared :
    (∃ t, step (corrupted.withFetchWord 40 0x1000000000) = .next t ∧ t.cor = false) ∧
    (∃ t, step { corrupted with inputs := [rstPins] } = .next t ∧ t.cor = false) := ⟨⟨_, rfl, rfl⟩, ⟨_, rfl, rfl⟩⟩
theorem witness_CorruptionIsSticky : corrupted.Inv ∧ corrupted.cor = true ∧ (Instr.feed 0 0).WellFormed = true ∧
    (Instr.feed 4 0).WellFormed = true ∧ Instr.feed 4 0 ≠ .init := ⟨corrupted_inv, by decide⟩
theorem witness_OnlyTheseCommandsWriteARegister :
    (∃ t, exec .final fedAbc = .next t ∧ t.dig ≠ fedAbc.dig ∧ t.fin ≠ fedAbc.fin ∧ t.idx ≠ fedAbc.idx) ∧
    (∃ t, exec .init corrupted = .next t ∧ t.cor ≠ corrupted.cor) :=
  ⟨⟨_, rfl, by decide +kernel⟩, ⟨_, rfl, by decide⟩⟩
theorem witness_Phases : fedAbc.Inv ∧ finalized.Inv ∧ corrupted.Inv ∧ nearCeiling.Inv ∧
    [State.reset, fedAbc, finalized, corrupted].map State.phase = [.fresh, .accumulating, .finalized, .corrupted] :=
  ⟨fedAbc_inv, finalized_inv, corrupted_inv, nearCeiling_inv, by decide⟩
theorem witness_StepKeepsTheInvariant : (State.withFetchWord nearCeiling 40 0x2441424344).Inv ∧
    ∃ t, step (nearCeiling.withFetchWord 40 0x2441424344) = .next t :=
  ⟨⟨by decide, by decide, by decide, by decide, by decide, by decide⟩, ⟨_, rfl⟩⟩
theorem witness_UnusedBufferBytesNeverShow :
    fedAbc.AgreeBelowIdx { fedAbc with buf := ⟨[(0, 0x61), (1, 0x62), (2, 0x63), (3, 0xFF), (63, 0xFF)]⟩ } :=
  ⟨rfl, rfl, rfl, by decide, rfl, rfl, rfl, rfl, rfl, rfl⟩
theorem witness_ChunkingDoesNotMatter :
    (∀ i ∈ [Instr.feed 3 0x61626300, .feed 1 0x64000000], isFeed i = true) ∧
    (∀ i ∈ [Instr.feed 4 0x61626364, .feed 0 7], isFeed i = true) ∧
    [Instr.feed 3 0x61626300, .feed 1 0x64000000].flatMap messageOf = [Instr.feed 4 0x61626364, .feed 0 7].flatMap messageOf := by
  decide
theorem witness_EngineComputesSha1 :
    (∀ i ∈ [Instr.feed 4 0x61626364, .peek, .rddig 0, .feed 1 0x65000000], i.WellFormed = true ∧ continuesSession i = true) ∧
    8 * ([Instr.feed 4 0x61626364, .peek, .rddig 0, .feed 1 0x65000000].flatMap messageOf).length < 2 ^ 64 := by decide
theorem witness_StepRunsTheDecodedCommand : State.port { fedAbc with port := .exec 0x3000000000 0 } = .exec 0x3000000000 0 ∧
    (State.nextPins { fedAbc with port := .exec 0x3000000000 0 }).rst = false := by decide
theorem witness_RstEdge : State.inputs { fedAbc with inputs := [rstPins, peekPins] } = rstPins :: [peekPins] ∧ rstPins.rst = true := by
  decide
theorem witness_PortMoves : State.reset.port = .idle ∧ fedAbc.port = .resp ⟨.success, 0⟩ ∧
    State.inputs { fedAbc with inputs := [peekPins] } = peekPins :: [] ∧ peekPins.rst = false ∧ peekPins.cmdValid = true ∧
    peekPins.rspReady = true ∧ Pins.quiet.rst = false ∧ Pins.quiet.cmdValid = false ∧ Pins.quiet.rspReady = false := by decide
/-- The latency is a free number, so the host waits as many edges as it says. -/
theorem witness_AcceptedCommandCompletes :
    ∃ (s : State) (ps : List Pins), s.port = .idle ∧ s.inputs = peekPins :: (ps ++ []) ∧ peekPins.rst = false ∧
      peekPins.cmdValid = true ∧ (∀ q ∈ ps, q.rst = false) ∧ ps.length = s.latency (decode peekPins.cmdWord) := by
  refine ⟨{ State.reset with inputs := peekPins :: (List.replicate (State.reset.latency .peek) Pins.quiet ++ []) },
    List.replicate (State.reset.latency .peek) Pins.quiet, rfl, rfl, rfl, rfl, ?_, ?_⟩
  · intro q hq
    rw [List.eq_of_mem_replicate hq]
    rfl
  · rw [List.length_replicate]
    rfl
theorem witness_HeldCommand : holdsCommand (State.cmdReady fedAbc peekPins) peekPins peekPins = true ∧
    holdsCommand (State.cmdReady fedAbc peekPins) peekPins Pins.quiet = false := by decide
/-- The duty holds at an edge with rst = 1 too: `cmd_ready` is 0 there, so the host may not drop its offer. -/
theorem test_holdsCommand_through_rst : holdsCommand (State.cmdReady State.reset rstPins) rstPins Pins.quiet = false ∧
    holdsCommand (State.cmdReady State.reset rstPins) rstPins peekPins = true := by decide
/-- An offer made at an edge with rst, held, and taken at the next. -/
def offeredThroughRst : State := { State.reset with inputs := [rstPins, peekPins] }
theorem witness_OfferedWordIsTheOneAccepted : offeredThroughRst.nextPins.cmdValid = true ∧ hostHolds 2 offeredThroughRst = true ∧
    firstAccepted (portTrace 2 offeredThroughRst) = some 0x3000000000 := ⟨rfl, rfl, rfl⟩
/-- The check tells a right response from a wrong one and from a second one. -/
theorem test_answersAtomically :
    answersAtomically fedAbc none [.accepted 0x7000000000, .delivered ⟨.success, 0x300⟩] = true ∧
    answersAtomically fedAbc none [.accepted 0x7000000000, .delivered ⟨.success, 0x301⟩] = false ∧
    answersAtomically fedAbc none [.accepted 0x7000000000, .reset, .delivered ⟨.success, 0x300⟩] = false := by decide
theorem witness_PortMoves_last_edge : State.port { fedAbc with port := .exec 0x3000000000 0 } = .exec 0x3000000000 0 := rfl
theorem witness_ResponsesComeInOrder : State.reset.port = .idle ∧ State.port { State.reset with port := .powerUp } = .powerUp := by
  decide
theorem witness_CommandBeforeReset : State.inputs { State.reset with port := .powerUp, inputs := [peekPins] } = peekPins :: [] ∧
    peekPins.rst = false ∧ peekPins.cmdValid = true := by decide

end Sys2Proof.Tests
end

section
/-! PROOFS. Whole messages and byte order (00_scope.md): the engine's H and BUF against the message fed so far, the padding
against the padded message, and the big-endian reads and writes. -/

namespace Sys2Proof.Machine

/-! ### Big-endian reads and writes (00_scope.md R13) -/

/-- Byte `j` of a big-endian read is the byte read at position `j`. -/
theorem byteOf_be32 (b0 b1 b2 b3 : Byte) {j : Nat} (hj : j < 4) :
    byteOf (be32 b0 b1 b2 b3) j = [b0, b1, b2, b3].getD j 0 := by
  apply BitVec.eq_of_getLsbD_eq
  intro i hi
  rw [getLsbD_byteOf _ j hi, be32_eq_append]
  refine (getLsbD_append4 b0 b1 b2 b3 _).trans ?_
  have : j = 0 ∨ j = 1 ∨ j = 2 ∨ j = 3 := by omega
  rcases this with rfl | rfl | rfl | rfl
  · rw [if_neg (by omega), if_neg (by omega), if_neg (by omega), show 24 - 8 * 0 + i - 24 = i by omega]
    rfl
  · rw [if_neg (by omega), if_neg (by omega), if_pos (by omega), show 24 - 8 * 1 + i - 16 = i by omega]
    rfl
  · rw [if_neg (by omega), if_pos (by omega), show 24 - 8 * 2 + i - 8 = i by omega]
    rfl
  · rw [if_pos (by omega), show 24 - 8 * 3 + i = i by omega]
    rfl

/-- A word is determined by its four bytes. -/
theorem eq_of_byteOf_eq {v w : Word} (h : ∀ j, j < 4 → byteOf v j = byteOf w j) : v = w := by
  apply BitVec.eq_of_getLsbD_eq
  intro i hi
  have hmod : i % 8 < 8 := Nat.mod_lt _ (by omega)
  have hi' : 24 - 8 * (3 - i / 8) + i % 8 = i := by omega
  have hbit := congrArg (fun b => b.getLsbD (i % 8)) (h (3 - i / 8) (by omega))
  simpa only [getLsbD_byteOf _ _ hmod, hi'] using hbit

/-- A word is the big-endian read of its own bytes. -/
theorem be32_byteOf (w : Word) : be32 (byteOf w 0) (byteOf w 1) (byteOf w 2) (byteOf w 3) = w := by
  refine eq_of_byteOf_eq fun j hj => (byteOf_be32 _ _ _ _ hj).trans ?_
  have : j = 0 ∨ j = 1 ∨ j = 2 ∨ j = 3 := by omega
  rcases this with rfl | rfl | rfl | rfl <;> rfl

/-- The bytes of a word read big-endian are the bytes it was read from. -/
theorem bytesBe32_be32 (b0 b1 b2 b3 : Byte) : bytesBe32 (be32 b0 b1 b2 b3) = [b0, b1, b2, b3] := by
  rw [bytesBe32, byteOf_be32 _ _ _ _ (by omega), byteOf_be32 _ _ _ _ (by omega), byteOf_be32 _ _ _ _ (by omega),
    byteOf_be32 _ _ _ _ (by omega)]
  rfl

/-- Settles O27: both directions follow from the bytes of a big-endian read. -/
theorem bigEndianRoundTrip : Obligations.BigEndianRoundTrip :=
  ⟨be32_byteOf, bytesBe32_be32⟩

/-! ### BUF as a list of bytes -/

/-- The bytes at positions 0 .. k-1, in order. -/
def Memory.firstBytes (m : Memory) (k : Nat) : List Byte := (List.range k).map m.read

@[simp] theorem Memory.firstBytes_zero (m : Memory) : m.firstBytes 0 = [] := rfl

@[simp] theorem Memory.firstBytes_length (m : Memory) (k : Nat) : (m.firstBytes k).length = k := by
  simp [Memory.firstBytes]

/-- A byte written right after the first `a` bytes is appended to them. -/
theorem Memory.firstBytes_write (m : Memory) (a : Nat) (b : Byte) :
    (m.write a b).firstBytes (a + 1) = m.firstBytes a ++ [b] := by
  have below : (List.range a).map (m.write a b).read = (List.range a).map m.read :=
    List.map_congr_left fun x hx => m.read_write_other b (Nat.ne_of_lt (List.mem_range.1 hx))
  simp [Memory.firstBytes, List.range_succ, below]

/-- Bytes written right after the first `a` bytes are appended to them. -/
theorem Memory.firstBytes_writeBytes (bs : List Byte) : ∀ (m : Memory) (a : Nat),
    (m.writeBytes a bs).firstBytes (a + bs.length) = m.firstBytes a ++ bs := by
  induction bs with
  | nil => simp
  | cons b bs ih =>
    intro m a
    rw [Memory.writeBytes_cons, List.length_cons, show a + (bs.length + 1) = a + 1 + bs.length by omega, ih,
      Memory.firstBytes_write, List.append_assoc]
    rfl

/-- The form of `Memory.firstBytes_writeBytes` for a length that is only equal to the sum. -/
theorem Memory.firstBytes_writeBytes_of_eq (m : Memory) {a k : Nat} {bs : List Byte} (h : a + bs.length = k) :
    (m.writeBytes a bs).firstBytes k = m.firstBytes a ++ bs := by
  rw [← h, Memory.firstBytes_writeBytes]

theorem Memory.firstBytes_zeroFill (m : Memory) {k last : Nat} (h : k ≤ last + 1) :
    (m.zeroFill k last).firstBytes (last + 1) = m.firstBytes k ++ List.replicate (last + 1 - k) 0 :=
  m.firstBytes_writeBytes_of_eq (by rw [List.length_replicate]; omega)

theorem firstBytes_padMark (buf : Memory) (idx : Nat) :
    (padMark buf idx).firstBytes (idx + 1) = buf.firstBytes idx ++ [0x80] :=
  buf.firstBytes_write idx 0x80

/-- The last padded block as a list: what stood below `k`, zeros up to 55, the length. -/
theorem firstBytes_padFinalBlock (p : Memory) {k : Nat} (hk : k ≤ 56) (lh ll : Word) :
    (padFinalBlock p k lh ll).firstBytes 64 =
      p.firstBytes k ++ List.replicate (56 - k) 0 ++ (bytesBe32 lh ++ bytesBe32 ll) := by
  rw [padFinalBlock, padLength, Memory.firstBytes_writeBytes_of_eq _ (k := 64) rfl,
    Memory.firstBytes_writeBytes_of_eq _ (k := 60) rfl, Memory.firstBytes_zeroFill p hk,
    List.append_assoc]

/-- The schedule's first words are those of the block's 64 bytes (43_compression.md R173). -/
theorem blockWords_eq_wordsOf (m : Memory) : blockWords m = wordsOf (m.firstBytes 64) := rfl

/-! ### Blocks of a message -/

/-- Whole blocks come first: they can be hashed before the rest. -/
theorem hashBlocks_append (n : Nat) (rest : List Byte) : ∀ (q : Nat) (h : Words5) (full : List Byte),
    full.length = 64 * q → hashBlocks (q + n) h (full ++ rest) = hashBlocks n (hashBlocks q h full) rest := by
  intro q
  induction q with
  | zero =>
    intro h full hl
    rw [List.length_eq_zero_iff.1 hl, Nat.zero_add, List.nil_append, hashBlocks]
  | succ q ih =>
    intro h full hl
    rw [show q + 1 + n = q + n + 1 by omega, hashBlocks, hashBlocks, List.take_append_of_le_length (by omega),
      List.drop_append_of_le_length (by omega), ih _ _ (by rw [List.length_drop]; omega)]

/-- The compression of BUF is the hashing of one block. -/
theorem compress_eq_hashBlocks (h : Words5) (m : Memory) : compress h m = hashBlocks 1 h (m.firstBytes 64) := by
  rw [compress, blockWords_eq_wordsOf, hashBlocks, hashBlocks, List.take_of_length_le (by simp)]

/-- The compression of BUF after whole blocks hashes one more block. -/
theorem compress_hashBlocks (m : Memory) {q : Nat} (h : Words5) {full : List Byte} (hl : full.length = 64 * q) :
    compress (hashBlocks q h full) m = hashBlocks (q + 1) h (full ++ m.firstBytes 64) := by
  rw [compress_eq_hashBlocks, hashBlocks_append 1 _ q h full hl]

/-! ### The engine holds the message fed so far -/

/-- The engine is in the middle of the message `m`: nothing is finalized or corrupted, LEN counts the bits of `m`, the whole blocks
of `m` are hashed into H, and the bytes after them stand in BUF below IDX. -/
structure State.HoldsMessage (s : State) (m : List Byte) : Prop where
  fin : s.fin = false
  cor : s.cor = false
  len : s.len.toNat = 8 * m.length
  blocks : ∃ q full, full.length = 64 * q ∧ m = full ++ s.buf.firstBytes s.idx.val ∧ s.h = hashBlocks q iv full

theorem State.HoldsMessage.ll_mod {s : State} {m : List Byte} (hm : s.HoldsMessage m) : s.ll.toNat % 8 = 0 := by
  have := hm.len
  rw [State.len_toNat] at this
  omega

theorem State.HoldsMessage.respond {s : State} {m : List Byte} (hm : s.HoldsMessage m) (st : Status) (v : Word) :
    (s.respond st v).HoldsMessage m := ⟨hm.fin, hm.cor, hm.len, hm.blocks⟩

theorem State.HoldsMessage.setDig {s : State} {m : List Byte} (hm : s.HoldsMessage m) (x : Words5) :
    (s.setDig x).HoldsMessage m := ⟨hm.fin, hm.cor, hm.len, hm.blocks⟩

/-- INIT starts the empty message. -/
theorem clearSession_holdsMessage (s : State) : s.clearSession.HoldsMessage [] :=
  ⟨rfl, rfl, by simp [State.len_toNat], 0, [], rfl, rfl, rfl⟩

/-- An accepted byte is appended to the message, whether or not it fills the block. -/
theorem State.HoldsMessage.acceptByte {s : State} {m : List Byte} (hm : s.HoldsMessage m) (b : Byte)
    (hl : 8 * (m.length + 1) < 2 ^ 64) : (s.acceptByte b).HoldsMessage (m ++ [b]) := by
  have hlen := hm.len
  have hover : overflows s.lh s.ll = false := by
    rw [← Bool.not_eq_true, State.overflows_iff_len]
    omega
  refine ⟨by simp [hm.fin], by simp [hm.cor, hover], ?_, ?_⟩
  · rw [s.acceptByte_len b hm.ll_mod, List.length_append, List.length_singleton]
    omega
  · obtain ⟨q, full, hfull, rfl, hh⟩ := hm.blocks
    have hidx := s.acceptByte_idx_val b
    have hlt := s.idx.isLt
    rw [State.acceptByte_h, State.acceptByte_buf, hidx, List.append_assoc, ← Memory.firstBytes_write]
    by_cases h63 : s.idx.val = 63
    · rw [if_pos h63, h63, hh, compress_hashBlocks _ _ hfull]
      exact ⟨q + 1, _, by simp [hfull, Nat.mul_succ], by simp, rfl⟩
    · rw [if_neg h63, Nat.mod_eq_of_lt (by omega)]
      exact ⟨q, full, hfull, rfl, hh⟩

theorem State.HoldsMessage.absorb (bs : List Byte) : ∀ {s : State} {m : List Byte}, s.HoldsMessage m →
    8 * (m ++ bs).length < 2 ^ 64 → (absorb bs s).HoldsMessage (m ++ bs) := by
  induction bs with
  | nil => intro s m hm _; simpa using hm
  | cons b bs ih =>
    intro s m hm hl
    rw [List.append_cons] at hl ⊢
    rw [absorb_cons hm.cor]
    refine ih (hm.acceptByte b ?_) hl
    simp only [List.length_append, List.length_singleton] at hl
    omega

/-- A command that only responds, in the middle of a message, carries no message bytes. -/
theorem State.HoldsMessage.messageOf_eq_nil {s : State} {m : List Byte} (hm : s.HoldsMessage m) {i : Instr}
    (hw : i.WellFormed = true) (ho : OnlyResponds i s) : messageOf i = [] := by
  cases i with
  | feed n data =>
    have hn : n.toNat ≤ 4 := by simpa [Instr.WellFormed] using hw
    have h0 : n.toNat = 0 := by
      rcases ho with h | h | h | h
      · exact h
      · omega
      · simp [hm.fin] at h
      · simp [hm.cor] at h
    exact feedOperand_zero data h0
  | _ => rfl

/-- Any command but INIT and FINAL continues the message with its own bytes. -/
theorem State.HoldsMessage.exec {s : State} {m : List Byte} (hm : s.HoldsMessage m) {i : Instr}
    (hw : i.WellFormed = true) (hc : continuesSession i = true) (hl : 8 * (m ++ messageOf i).length < 2 ^ 64) :
    ∃ t, exec i s = .next t ∧ t.HoldsMessage (m ++ messageOf i) := by
  obtain ⟨t, ht, hcase⟩ := exec_cases i s
  refine ⟨t, ht, ?_⟩
  cases hcase with
  | responds st v ho =>
    rw [hm.messageOf_eq_nil hw ho, List.append_nil]
    exact hm.respond st v
  | clears h => subst h; cases hc
  | feeds n data h _ _ _ _ => subst h; exact (hm.absorb (feedOperand n data) hl).respond _ 0
  | peeks h _ _ =>
    subst h
    rw [messageOf, List.append_nil]
    exact (hm.setDig _).respond _ _
  | copies _ _ hf => simp [hm.fin] at hf
  | finalizes h _ _ => subst h; cases hc

/-- A run of such commands continues the message with all their bytes, whatever commands come after them. -/
theorem State.HoldsMessage.runCommands_append (r : List Instr) (cs : List Instr) : ∀ {s : State} {m : List Byte},
    s.HoldsMessage m → (∀ i ∈ cs, i.WellFormed = true ∧ continuesSession i = true) →
    8 * (m ++ cs.flatMap messageOf).length < 2 ^ 64 →
    ∃ t, runCommands (cs ++ r) s = runCommands r t ∧ t.HoldsMessage (m ++ cs.flatMap messageOf) := by
  induction cs with
  | nil => intro s m hm _ _; exact ⟨s, rfl, by simpa using hm⟩
  | cons i cs ih =>
    intro s m hm hcs hl
    obtain ⟨⟨hw, hc⟩, hrest⟩ := List.forall_mem_cons.1 hcs
    rw [List.flatMap_cons, ← List.append_assoc] at hl ⊢
    have hi : 8 * (m ++ messageOf i).length < 2 ^ 64 := by
      rw [List.length_append] at hl
      omega
    obtain ⟨t, ht, hmt⟩ := hm.exec hw hc hi
    obtain ⟨u, hu, hmu⟩ := ih hmt hrest hl
    refine ⟨u, ?_, hmu⟩
    rw [List.cons_append, runCommands, ht]
    exact hu

/-! ### The padding is that of the whole message -/

/-- The length field of the message is LEN (20_memory.md R54). -/
theorem State.HoldsMessage.lengthField_eq {s : State} {m : List Byte} (hm : s.HoldsMessage m) :
    lengthField m.length = bytesBe32 s.lh ++ bytesBe32 s.ll := by
  have hlen := hm.len
  have hll := s.ll.isLt
  have hlh := s.lh.isLt
  rw [State.len_toNat] at hlen
  have high : BitVec.ofNat 32 (8 * m.length / 2 ^ 32) = s.lh := by
    apply BitVec.eq_of_toNat_eq
    rw [BitVec.toNat_ofNat]
    omega
  have low : BitVec.ofNat 32 (8 * m.length) = s.ll := by
    apply BitVec.eq_of_toNat_eq
    rw [BitVec.toNat_ofNat]
    omega
  rw [lengthField, high, low]

/-- SHA-1 of a message whose padded form is cut at a block boundary. -/
theorem sha1_of_paddedMessage_eq {m full tail : List Byte} {q n : Nat} (hp : paddedMessage m = full ++ tail)
    (hfull : full.length = 64 * q) (htail : tail.length = 64 * n) :
    sha1 m = hashBlocks n (hashBlocks q iv full) tail := by
  have hblocks : (full ++ tail).length / 64 = q + n := by
    rw [List.length_append]
    omega
  rw [sha1, hp, hblocks, hashBlocks_append n tail q iv full hfull]

/-- Padding the engine's H and BUF gives the SHA-1 of the whole message (42_result_padding.md R145 to R149). -/
theorem State.HoldsMessage.padAndCompress_eq_sha1 {s : State} {m : List Byte} (hm : s.HoldsMessage m) :
    (padAndCompress s.h s.lh s.ll s.buf s.idx.val).1 = sha1 m := by
  have hfield := hm.lengthField_eq
  obtain ⟨q, full, hfull, rfl, hh⟩ := hm.blocks
  have hlt := s.idx.isLt
  have hmod : (full ++ s.buf.firstBytes s.idx.val).length % 64 = s.idx.val := by
    rw [List.length_append, hfull, Memory.firstBytes_length]
    omega
  by_cases h56 : s.idx.val < 56
  · have hzeros : (119 - s.idx.val) % 64 = 56 - (s.idx.val + 1) := by omega
    rw [padAndCompress_one h56, compress_eq_hashBlocks, hh]
    refine (sha1_of_paddedMessage_eq ?_ hfull (by simp)).symm
    rw [paddedMessage, hmod, hfield, hzeros, firstBytes_padFinalBlock _ (by omega), firstBytes_padMark]
    simp only [List.append_assoc]
  · have hzeros : (119 - s.idx.val) % 64 = 63 + 1 - (s.idx.val + 1) + 56 := by omega
    rw [padAndCompress_two (by omega), compress_eq_hashBlocks s.h, compress_hashBlocks _ _ (Memory.firstBytes_length _ _), hh]
    refine (sha1_of_paddedMessage_eq ?_ hfull (by simp)).symm
    rw [paddedMessage, hmod, hfield, hzeros, ← List.replicate_append_replicate, Memory.firstBytes_zeroFill _ (by omega),
      firstBytes_padMark, firstBytes_padFinalBlock _ (Nat.zero_le 56), Memory.firstBytes_zero, List.nil_append]
    simp only [List.append_assoc]

/-- PEEK and FINAL in an engine that is neither corrupted nor finalized put the padded digest in DIG and succeed
(42_result_padding.md R142, R152). -/
theorem exec_result {r : Instr} (hr : r = .peek ∨ r = .final) {s : State} (hc : s.cor = false) (hf : s.fin = false) :
    ∃ t, exec r s = .next t ∧ t.dig = (padAndCompress s.h s.lh s.ll s.buf s.idx.val).1 ∧
      t.response = some ⟨.success, 0⟩ := by
  obtain ⟨t, ht, hcase⟩ := exec_cases r s
  refine ⟨t, ht, ?_⟩
  cases hcase with
  | responds st v ho => rcases hr with rfl | rfl <;> exact absurd ho (by simp [OnlyResponds, hc])
  | clears h => subst h; simp at hr
  | feeds n data h => subst h; simp at hr
  | peeks => exact ⟨rfl, rfl⟩
  | copies _ _ h => simp [hf] at h
  | finalizes => exact ⟨rfl, rfl⟩

/-- Settles O51: after INIT the engine holds the empty message, every command of the session continues the message, and the
padding of what the engine holds is that of the whole message. -/
theorem engineComputesSha1OfTheMessage : Obligations.EngineComputesSha1OfTheMessage := by
  intro s cs r hcs hl hr
  have hinit : (s.clearSession.respond .success 0).HoldsMessage [] := (clearSession_holdsMessage s).respond _ _
  obtain ⟨t, ht, hm⟩ := hinit.runCommands_append [r] cs hcs hl
  obtain ⟨u, hu, hdig, hresp⟩ := exec_result hr hm.cor hm.fin
  refine ⟨u, ?_, hdig.trans hm.padAndCompress_eq_sha1, hresp⟩
  have hlast : runCommands [r] t = .next u := by simp only [runCommands, hu]
  exact ht.trans hlast

end Sys2Proof.Machine
end

section
/-! PROOFS. The architectural state (10_state.md): the invariant of R22 and R31 under every command and every edge, the bytes of
BUF that never show (R24), which command writes which register (R20 to R27), the state machine (R30) and the status view (R29). -/

namespace Sys2Proof.Machine

/-! ### The invariant (R22, R31) -/

theorem State.len_eq_zero {s : State} (hlh : s.lh = 0) (hll : s.ll = 0) : s.len = 0 := by
  rw [State.len, hlh, hll]
  rfl

/-- An erased engine that is not corrupted meets the invariant, if DIG = H when it is finalized: what reset, INIT
and FINAL leave. -/
theorem State.Inv.of_erased {s : State} (hlh : s.lh = 0) (hll : s.ll = 0) (hbuf : s.buf = Memory.allZero) (hidx : s.idx = 0)
    (hcor : s.cor = false) (hdig : s.fin = true → s.dig = s.h) : s.Inv := by
  have hlen := State.len_eq_zero hlh hll
  refine ⟨?_, ?_, ?_, ?_, ?_, ?_⟩
  · rw [hbuf, Memory.wf_allZero]
  · rw [hll]; rfl
  · rw [hcor, Bool.and_false]
  · rw [hidx, hlen]; rfl
  · intro h; simp [hcor] at h
  · intro h; exact ⟨hlen, hidx, fun a _ => by rw [hbuf, Memory.read_allZero], hdig h⟩

theorem State.Inv.respond {s : State} (hs : s.Inv) (st : Status) (v : Word) : (s.respond st v).Inv :=
  hs.congr (s.sameEngine_respond st v)

theorem State.Inv.port_inputs {s : State} (hs : s.Inv) (p : Port) (q : List Pins) : State.Inv { s with port := p, inputs := q } :=
  hs.congr (s.sameEngine_port_inputs p q)

/-- A new digest keeps the invariant, if it is H in a finalized engine (R31 item 4). -/
theorem State.Inv.setDig {s : State} (hs : s.Inv) {x : Words5} (hx : s.fin = true → x = s.h) : (s.setDig x).Inv := by
  obtain ⟨hwf, hll, hboth, hidx, hcor, hfin⟩ := hs
  refine ⟨hwf, hll, hboth, hidx, hcor, fun h => ?_⟩
  obtain ⟨hlen0, hidx0, hblank, -⟩ := hfin h
  exact ⟨hlen0, hidx0, hblank, hx h⟩

theorem State.Inv.reset : State.reset.Inv := .of_erased rfl rfl rfl rfl rfl fun h => by simp [State.reset] at h

theorem State.Inv.clearSession (s : State) : s.clearSession.Inv := .of_erased rfl rfl rfl rfl rfl fun h => by simp at h

/-- Copying H to DIG after the erasure completes R31 item 4. -/
theorem State.Inv.finalize_setDig {s : State} (hc : s.cor = false) : (s.finalize.setDig s.finalize.h).Inv :=
  .of_erased (by simp) (by simp) (by simp) (by simp) (by simp [hc]) fun _ => by simp

/-- An accepted byte keeps the invariant, even the byte that reaches 2^64 bits: 2^61 is a multiple of 64, so LEN and IDX wrap to 0
together (R31 item 2). -/
theorem State.Inv.acceptByte {s : State} (hs : s.Inv) (hf : s.fin = false) (hc : s.cor = false) (b : Byte) :
    (s.acceptByte b).Inv := by
  have hlen := s.acceptByte_len b hs.ll_bytes
  have hidx := s.acceptByte_idx_val b
  have hold := hs.idx_len
  refine ⟨?_, s.acceptByte_ll_mod b hs.ll_bytes, by simp [hf], by omega, fun h => ?_, fun h => by simp [hf] at h⟩
  · rw [State.acceptByte_buf]
    exact Memory.wf_write b s.idx.isLt hs.buf_wf
  · have hover : s.len.toNat + 8 = 2 ^ 64 := s.overflows_iff_len.1 (by simpa [hc] using h)
    have hlen0 : (s.acceptByte b).len.toNat = 0 := by omega
    have hidx0 : (s.acceptByte b).idx.val = 0 := by omega
    exact ⟨BitVec.eq_of_toNat_eq hlen0, Fin.ext hidx0⟩

theorem State.Inv.absorb (bs : List Byte) : ∀ {s : State}, s.Inv → s.fin = false → (absorb bs s).Inv := by
  induction bs with
  | nil => intro s hs _; exact hs
  | cons b bs ih =>
    intro s hs hf
    cases hc : s.cor with
    | true => rw [absorb_of_cor hc]; exact hs
    | false =>
      rw [absorb_cons hc]
      exact ih (hs.acceptByte hf hc b) (by simp [hf])

/-- Every command keeps the invariant. -/
theorem ExecCase.inv {i : Instr} {s t : State} (h : ExecCase i s t) (hs : s.Inv) : t.Inv := by
  cases h with
  | responds st v _ => exact hs.respond st v
  | clears _ => exact (State.Inv.clearSession s).respond _ _
  | feeds n data _ _ _ hf _ => exact (State.Inv.absorb _ hs hf).respond _ _
  | peeks _ _ hf => exact (hs.setDig fun h => by simp [hf] at h).respond _ _
  | copies _ _ _ => exact (hs.setDig fun _ => rfl).respond _ _
  | finalizes _ hc _ => exact (State.Inv.finalize_setDig hc).respond _ _

/-- Settles O46: rst leads to an erased engine, a command keeps the invariant, and every other edge moves the port and the pins
alone. -/
theorem stepKeepsTheInvariant : Obligations.StepKeepsTheInvariant := by
  intro s t hs h
  cases step_cases h with
  | rst _ => exact State.Inv.reset.port_inputs _ _
  | waits _ => exact hs.port_inputs _ _
  | accepts _ _ _ => exact hs.port_inputs _ _
  | counts w more _ _ => exact hs.port_inputs _ _
  | runs w t _ _ hcase => exact hcase.inv (hs.port_inputs _ _)
  | delivers r _ _ _ => exact hs.port_inputs _ _

/-- Settles O45: reset erases the engine. -/
theorem resetMeetsTheInvariant : Obligations.ResetMeetsTheInvariant :=
  State.Inv.reset

/-- A run that goes on has a first step that goes on. -/
theorem core_run_succ_eq_next {k : Nat} {s t : State} (h : Host.Core.run Sys2Proof.core (k + 1) s = .next t) :
    ∃ u, step s = .next u ∧ Host.Core.run Sys2Proof.core k u = .next t := by
  have hrun := host_run_succ Sys2Proof.core k s
  cases hstep : step s with
  | next u => exact ⟨u, rfl, (core_run_next hstep).symm.trans h⟩
  | fault r => cases r
  | refused r =>
    have hstep : Sys2Proof.core.step s = .refused r := hstep
    rw [hstep, h] at hrun
    cases hrun

/-- What every step keeps, every run keeps. -/
theorem core_run_keeps {P : State → Prop} (hP : ∀ s t, P s → step s = .next t → P t) :
    ∀ (k : Nat) {s t : State}, P s → Host.Core.run Sys2Proof.core k s = .next t → P t := by
  intro k
  induction k with
  | zero =>
    intro s t hs h
    rw [core_run_zero] at h
    cases h
    exact hs
  | succ k ih =>
    intro s t hs h
    obtain ⟨u, hu, hrest⟩ := core_run_succ_eq_next h
    exact ih (hP s u hs hu) hrest

/-- Settles O47: the invariant holds at reset, whatever the host will drive, and every step keeps it. -/
theorem everyReachableStateMeetsTheInvariant : Obligations.EveryReachableStateMeetsTheInvariant := by
  intro k ps t h
  exact core_run_keeps stepKeepsTheInvariant k (State.Inv.reset.port_inputs .idle ps) h

/-! ### The bytes of BUF that never show (R24) -/

namespace State.AgreeBelowIdx

theorem respond {s t : State} (h : s.AgreeBelowIdx t) (st : Status) (v : Word) :
    (s.respond st v).AgreeBelowIdx (t.respond st v) :=
  ⟨h.h, h.lh, h.ll, h.below, h.idx, h.fin, h.cor, h.dig, rfl, h.inputs⟩

theorem setDig {s t : State} (h : s.AgreeBelowIdx t) (x : Words5) : (s.setDig x).AgreeBelowIdx (t.setDig x) :=
  ⟨h.h, h.lh, h.ll, h.below, h.idx, h.fin, h.cor, rfl, h.port, h.inputs⟩

theorem answer {s t : State} (h : s.AgreeBelowIdx t) (x : Option Word) : (s.answer x).AgreeBelowIdx (t.answer x) := by
  cases x with
  | some v => exact h.respond .success v
  | none => exact h.respond .illegalCmd 0

theorem clearSession {s t : State} (h : s.AgreeBelowIdx t) : s.clearSession.AgreeBelowIdx t.clearSession :=
  ⟨rfl, rfl, rfl, fun _ _ => rfl, rfl, rfl, rfl, rfl, h.port, h.inputs⟩

theorem lenHalf_eq {s t : State} (h : s.AgreeBelowIdx t) (k : BitVec 4) : lenHalf s k = lenHalf t k := by
  unfold lenHalf
  rw [h.ll, h.lh]

theorem statusView_eq {s t : State} (h : s.AgreeBelowIdx t) : s.statusView = t.statusView := by
  unfold State.statusView
  rw [h.idx, h.cor, h.fin]

/-- The byte stored at IDX is the same in both, so they agree up to and including it. -/
theorem read_write {s t : State} (h : s.AgreeBelowIdx t) (b : Byte) {a : Nat} (ha : a < s.idx.val + 1) :
    (s.buf.write s.idx.val b).read a = (t.buf.write t.idx.val b).read a := by
  rw [← h.idx, Memory.read_write, Memory.read_write]
  by_cases hi : a = s.idx.val
  · rw [if_pos hi, if_pos hi]
  · rw [if_neg hi, if_neg hi, h.below a (by omega)]

/-- A full block holds only bytes that have been stored (R124, R127). -/
theorem acceptByte {s t : State} (h : s.AgreeBelowIdx t) (b : Byte) : (s.acceptByte b).AgreeBelowIdx (t.acceptByte b) := by
  have hhash : (s.acceptByte b).h = (t.acceptByte b).h := by
    rw [State.acceptByte_h, State.acceptByte_h, ← h.h]
    by_cases h63 : s.idx.val = 63
    · rw [if_pos h63, if_pos (h.idx ▸ h63)]
      exact compress_congr s.h fun a ha => h.read_write b (by omega)
    · rw [if_neg h63, if_neg (h.idx ▸ h63)]
  have hbelow : ∀ a, a < (s.acceptByte b).idx.val → (s.acceptByte b).buf.read a = (t.acceptByte b).buf.read a := by
    intro a ha
    rw [State.acceptByte_idx_val] at ha
    rw [State.acceptByte_buf, State.acceptByte_buf]
    exact h.read_write b (by omega)
  refine ⟨hhash, ?_, ?_, hbelow, ?_, ?_, ?_, ?_, ?_, ?_⟩ <;> simp [h.lh, h.ll, h.idx, h.fin, h.cor, h.dig, h.port, h.inputs]

theorem feedBytes (bs : List Byte) : ∀ {s t : State}, s.AgreeBelowIdx t →
    (feedBytes bs s).1.AgreeBelowIdx (feedBytes bs t).1 ∧ (feedBytes bs s).2 = (feedBytes bs t).2 := by
  induction bs with
  | nil => intro s t h; exact ⟨h, rfl⟩
  | cons b bs ih =>
    intro s t h
    rw [Machine.feedBytes, Machine.feedBytes, ← h.lh, ← h.ll]
    by_cases ho : overflows s.lh s.ll = true
    · rw [if_pos ho, if_pos ho]
      exact ⟨h.acceptByte b, rfl⟩
    · rw [if_neg ho, if_neg ho]
      exact ih (h.acceptByte b)

theorem feedLegal {s t : State} (h : s.AgreeBelowIdx t) (n : BitVec 4) (data : Word) :
    (feedLegal n data s).AgreeBelowIdx (feedLegal n data t) := by
  unfold Machine.feedLegal
  rw [← h.fin, ← h.cor]
  split
  · exact h.respond .success 0
  · split
    · exact h.respond .stateError 0
    · split
      · exact h.respond .inputTooLong 0
      · obtain ⟨hagree, hstatus⟩ := feedBytes (feedOperand n data) h
        simp only [hstatus]
        exact hagree.respond _ 0

/-- The padding reads BUF below IDX alone (42_result_padding.md R146). -/
theorem digest_eq {s t : State} (h : s.AgreeBelowIdx t) :
    (padAndCompress s.h s.lh s.ll s.buf s.idx.val).1 = (padAndCompress t.h t.lh t.ll t.buf t.idx.val).1 := by
  rw [← h.h, ← h.lh, ← h.ll, ← h.idx]
  exact padAndCompress_congr s.h s.lh s.ll h.below

/-- Both are erased, and their hash words are the same digest. -/
theorem finalize {s t : State} (h : s.AgreeBelowIdx t) : s.finalize.AgreeBelowIdx t.finalize := by
  refine ⟨?_, ?_, ?_, ?_, ?_, ?_, ?_, ?_, ?_, ?_⟩ <;>
    simp [h.digest_eq, h.cor, h.dig, h.port, h.inputs]

theorem peekState {s t : State} (h : s.AgreeBelowIdx t) : (peekState s).AgreeBelowIdx (peekState t) := by
  have hdig : s.snapshot.finish.h = t.snapshot.finish.h := h.digest_eq
  unfold Machine.peekState
  rw [← h.cor, ← h.fin, ← h.h, ← hdig]
  split
  · exact h.respond .inputTooLong 0
  · split
    · exact (h.setDig s.h).respond .success 0
    · exact (h.setDig s.snapshot.finish.h).respond .success 0

/-- Copying H to DIG, with SUCCESS: how FINAL ends. -/
theorem copyHash {s t : State} (h : s.AgreeBelowIdx t) :
    ((s.setDig s.h).respond .success 0).AgreeBelowIdx ((t.setDig t.h).respond .success 0) := by
  rw [← h.h]
  exact (h.setDig s.h).respond .success 0

theorem finalState {s t : State} (h : s.AgreeBelowIdx t) : (finalState s).AgreeBelowIdx (finalState t) := by
  unfold Machine.finalState
  rw [← h.cor, ← h.fin]
  split
  · exact h.respond .inputTooLong 0
  · split
    · exact h.copyHash
    · exact h.finalize.copyHash

/-- Every command leads states that agree to states that agree. -/
theorem exec {s t : State} (h : s.AgreeBelowIdx t) (i : Instr) :
    ∃ s' t', exec i s = .next s' ∧ exec i t = .next t' ∧ s'.AgreeBelowIdx t' := by
  cases i with
  | nop => exact ⟨_, _, rfl, rfl, h.respond .success 0⟩
  | init => exact ⟨_, _, rfl, rfl, h.clearSession.respond .success 0⟩
  | feed n data =>
    refine ⟨_, _, rfl, rfl, ?_⟩
    split
    · exact h.feedLegal n data
    · exact h.respond .illegalCmd 0
  | peek => exact ⟨_, _, rfl, rfl, h.peekState⟩
  | final => exact ⟨_, _, rfl, rfl, h.finalState⟩
  | rddig k => exact ⟨_, _, rfl, rfl, h.dig ▸ h.answer (wordAt s.dig k.toNat)⟩
  | rdlen k => exact ⟨_, _, rfl, rfl, h.lenHalf_eq k ▸ h.answer (lenHalf s k)⟩
  | rdstat => exact ⟨_, _, rfl, rfl, h.statusView_eq ▸ h.respond .success s.statusView⟩
  | illegal => exact ⟨_, _, rfl, rfl, h.respond .illegalCmd 0⟩

end State.AgreeBelowIdx

/-- Settles O48: the states a command leads to agree in the port too, and so in the response. -/
theorem unusedBufferBytesNeverShow : Obligations.UnusedBufferBytesNeverShow := by
  intro i s t h
  obtain ⟨s', t', hs', ht', hagree⟩ := h.exec i
  exact ⟨s', t', hs', ht', congrArg Port.offered hagree.port, hagree⟩

/-! ### Which command writes which register (R20 to R27) -/

/-- Settles O43: each case of a command leaves alone the registers it may not write. -/
theorem onlyTheseCommandsWriteARegister : Obligations.OnlyTheseCommandsWriteARegister := by
  intro i s t h
  cases exec_case h with
  | responds st v _ => simp
  | clears hi => simp [hi]
  | feeds n data hi _ _ hf hc =>
    obtain ⟨hfin, hdig, -, -⟩ := absorb_frame (feedOperand n data) s
    simp [hi, hfin, hdig, hc]
  | peeks hi _ _ => simp [hi]
  | copies hi _ _ =>
    obtain rfl | rfl := hi <;> simp
  | finalizes hi _ _ => simp [hi]

/-! ### The state machine (R30) -/

@[simp] theorem State.phase_respond (s : State) (st : Status) (v : Word) : (s.respond st v).phase = s.phase := rfl

@[simp] theorem State.phase_setDig (s : State) (x : Words5) : (s.setDig x).phase = s.phase := rfl

theorem State.phase_of_cor {s : State} (hc : s.cor = true) : s.phase = .corrupted := by
  simp [State.phase, hc]

theorem State.phase_of_fin {s : State} (hc : s.cor = false) (hf : s.fin = true) : s.phase = .finalized := by
  simp [State.phase, hc, hf]

theorem State.phase_of_len_eq_zero {s : State} (hc : s.cor = false) (hf : s.fin = false) (hl : s.len = 0) :
    s.phase = .fresh := by
  simp [State.phase, hc, hf, hl]

theorem State.phase_of_len_ne_zero {s : State} (hc : s.cor = false) (hf : s.fin = false) (hl : s.len ≠ 0) :
    s.phase = .accumulating := by
  simp only [State.phase, hc, hf, hl, if_false, Bool.false_eq_true]

/-- No byte reaches no ceiling. -/
theorem State.reachesCeiling_zero (s : State) : s.reachesCeiling 0 = false := by
  have := s.len.isLt
  simp only [State.reachesCeiling, decide_eq_false_iff_not]
  omega

/-- A FEED of no bytes leads nowhere. -/
theorem State.nextPhase_feed_zero (s : State) {n : BitVec 4} (data : Word) (h0 : n.toNat = 0) :
    s.nextPhase (.feed n data) = s.phase := by
  simp only [State.nextPhase, h0, State.reachesCeiling_zero]
  cases s.phase <;> rfl

/-- The state machine moves nowhere on a command that only responds. -/
theorem State.nextPhase_of_onlyResponds {s : State} {i : Instr} (hw : i.WellFormed = true) (ho : OnlyResponds i s) :
    s.nextPhase i = s.phase := by
  cases i with
  | init => cases ho
  | feed n data =>
    have hn : n.toNat ≤ 4 := by simpa [Instr.WellFormed] using hw
    obtain h0 | h4 | hf | hc := ho
    · exact s.nextPhase_feed_zero data h0
    · omega
    · cases hc : s.cor with
      | true => simp [State.nextPhase, State.phase_of_cor hc]
      | false => simp [State.nextPhase, State.phase_of_fin hc hf]
    · simp [State.nextPhase, State.phase_of_cor hc]
  | final => simp [State.nextPhase, State.phase_of_cor ho]
  | _ => rfl

/-- Bytes lead to Accumulating, or to Corrupted when they reach the ceiling. -/
theorem State.phase_absorb {s : State} {bs : List Byte} (h8 : s.ll.toNat % 8 = 0) (hf : s.fin = false) (hc : s.cor = false)
    (hpos : 0 < bs.length) :
    (absorb bs s).phase = if s.reachesCeiling bs.length then .corrupted else .accumulating := by
  by_cases hmax : 2 ^ 64 ≤ s.len.toNat + 8 * bs.length
  · rw [State.reachesCeiling, if_pos (decide_eq_true hmax)]
    exact State.phase_of_cor ((absorb_cor_iff bs hc h8).2 hmax)
  · obtain ⟨hlen, -, hcor⟩ := absorb_len bs hc h8 (by omega)
    obtain ⟨hfin, -, -, -⟩ := absorb_frame bs s
    rw [State.reachesCeiling, if_neg (by simpa using hmax)]
    refine State.phase_of_len_ne_zero hcor (hfin.trans hf) fun h0 => ?_
    rw [h0] at hlen
    have : (0 : BitVec 64).toNat = 0 := rfl
    omega

/-- In an engine that takes bytes, the state machine follows a FEED of at least one: a Fresh engine is far from the ceiling. -/
theorem State.nextPhase_feed {s : State} {n : BitVec 4} (data : Word) (hf : s.fin = false) (hc : s.cor = false)
    (hpos : 0 < n.toNat) (hn : n.toNat ≤ 4) :
    s.nextPhase (.feed n data) = if s.reachesCeiling n.toNat then .corrupted else .accumulating := by
  by_cases hl : s.len = 0
  · have hfar : s.reachesCeiling n.toNat = false := by
      simp only [State.reachesCeiling, hl, decide_eq_false_iff_not]
      have : (0 : BitVec 64).toNat = 0 := rfl
      omega
    simp [State.nextPhase, State.phase_of_len_eq_zero hc hf hl, hfar, Nat.ne_of_gt hpos]
  · simp only [State.nextPhase, State.phase_of_len_ne_zero hc hf hl]

/-- FINAL leads to Finalized from every engine that is not corrupted. -/
theorem State.nextPhase_final {s : State} (hc : s.cor = false) : s.nextPhase .final = .finalized := by
  cases hf : s.fin with
  | true => simp [State.nextPhase, State.phase_of_fin hc hf]
  | false =>
    by_cases hl : s.len = 0
    · simp [State.nextPhase, State.phase_of_len_eq_zero hc hf hl]
    · simp [State.nextPhase, State.phase_of_len_ne_zero hc hf hl]

/-- Every well-formed command leads where the state machine says. -/
theorem ExecCase.phase_eq {i : Instr} {s t : State} (h : ExecCase i s t) (hs : s.Inv) (hw : i.WellFormed = true) :
    t.phase = s.nextPhase i := by
  cases h with
  | responds st v ho => rw [State.phase_respond, State.nextPhase_of_onlyResponds hw ho]
  | clears hi =>
    subst hi
    exact State.phase_of_len_eq_zero rfl rfl (State.len_eq_zero rfl rfl)
  | feeds n data hi hpos hn hf hc =>
    have hlen := feedOperand_length data hn
    rw [hi, State.phase_respond, State.phase_absorb hs.ll_bytes hf hc (by omega), hlen, State.nextPhase_feed data hf hc hpos hn]
  | peeks hi _ _ => subst hi; rfl
  | copies hi hc hf =>
    obtain rfl | rfl := hi
    · rfl
    · rw [State.nextPhase_final hc, State.phase_respond, State.phase_setDig, State.phase_of_fin hc hf]
  | finalizes hi hc _ =>
    rw [hi, State.nextPhase_final hc, State.phase_respond, State.phase_setDig, State.phase_of_fin (by simpa using hc) (by simp)]

/-- An edge with rst = 1 resets, whatever the port does (70_reset_and_hazards.md R260). -/
theorem step_of_rst {s : State} (h : s.nextPins.rst = true) : step s = .next s.takePins.rstEdge := if_pos h

/-- Settles O44: the cases of a command follow the state machine, and rst leaves LEN 0 and both flags clear. -/
theorem phasesFollowTheStateMachine : Obligations.PhasesFollowTheStateMachine := by
  refine ⟨fun i s t hs hw h => (exec_case h).phase_eq hs hw, fun s p hp => ?_⟩
  exact ⟨_, step_of_rst hp, State.phase_of_len_eq_zero rfl rfl (State.len_eq_zero rfl rfl)⟩

/-! ### Reset and the status view (R36, R29) -/

/-- Settles O1: the reset state is written out with the values of R36, and BUF lists no byte. -/
theorem resetHoldsTheInitialValues : Obligations.ResetHoldsTheInitialValues :=
  ⟨rfl, rfl, rfl, fun a _ => Memory.read_allZero a, rfl, rfl, rfl, rfl, rfl⟩

theorem getLsbD_flagBit (b : Bool) (i : Nat) : (flagBit b).getLsbD i = (decide (i = 0) && b) := by
  cases b with
  | false => simp [flagBit]
  | true => by_cases h : i = 0 <;> simp [flagBit, h]

/-- The status view bit by bit: IDX from bit 8 up, COR in bit 1, FIN in bit 0. -/
theorem State.getLsbD_statusView (s : State) {i : Nat} (hi : i < 32) : s.statusView.getLsbD i =
    ((!decide (i < 8) && s.idx.val.testBit (i - 8)) || (decide (i = 1) && s.cor) || (decide (i = 0) && s.fin)) := by
  simp only [State.statusView, BitVec.getLsbD_or, BitVec.getLsbD_shiftLeft, BitVec.getLsbD_ofNat, getLsbD_flagBit]
  obtain rfl | rfl | h2 : i = 0 ∨ i = 1 ∨ 2 ≤ i := by omega
  · simp
  · simp
  · simp [hi, show i - 8 < 32 by omega, show ¬ i = 0 by omega, show ¬ i = 1 by omega, show ¬ i - 1 = 0 by omega]

/-- Settles O25: the status view holds each field at its own bits, and IDX fits in six. -/
theorem rdstatShowsTheFlagsAndIndex : Obligations.RdstatShowsTheFlagsAndIndex := by
  intro s
  refine ⟨s.statusView, rfl, ?_, ?_, ?_, ?_, ?_⟩
  · rw [s.getLsbD_statusView (by omega)]
    simp
  · rw [s.getLsbD_statusView (by omega)]
    simp
  · apply BitVec.eq_of_getLsbD_eq
    intro i hi
    rw [BitVec.getLsbD_extractLsb', s.getLsbD_statusView (by omega)]
    simp [show 2 + i < 8 by omega, show ¬ 2 + i = 1 by omega]
  · have hfield : s.statusView.extractLsb' 8 6 = BitVec.ofNat 6 s.idx.val := by
      apply BitVec.eq_of_getLsbD_eq
      intro i hi
      rw [BitVec.getLsbD_extractLsb', s.getLsbD_statusView (by omega)]
      simp [hi, show ¬ 8 + i = 1 by omega]
    rw [hfield, BitVec.toNat_ofNat, Nat.mod_eq_of_lt s.idx.isLt]
  · apply BitVec.eq_of_getLsbD_eq
    intro i hi
    have hpow : 2 ^ 6 ≤ 2 ^ (14 + i - 8) := Nat.pow_le_pow_right (by omega) (by omega)
    have hhigh : s.idx.val.testBit (14 + i - 8) = false := Nat.testBit_lt_two_pow (by omega)
    rw [BitVec.getLsbD_extractLsb', s.getLsbD_statusView (by omega)]
    simp [hhigh, show ¬ 14 + i = 1 by omega]

end Sys2Proof.Machine
end

section
/-! PROOFS. Memory and command sequences (20_memory.md): how a message is cut into FEEDs does not show (R65), PEEK and FINAL agree
and repeat (R60), and the two halves of LEN are read one after the other (R59). -/

namespace Sys2Proof.Machine

/-! ### Commands one after another (R61) -/

theorem runCommands_cons {i : Instr} {s t : State} (h : exec i s = .next t) (is : List Instr) :
    runCommands (i :: is) s = runCommands is t := by
  rw [runCommands, h]

/-! ### Chunks of a message (R65) -/

theorem State.SameEngine.absorb {s e : State} (h : s.SameEngine e) (bs : List Byte) :
    (absorb bs s).SameEngine (absorb bs e) := by
  rw [h.eq_with, absorb_port_inputs]
  exact (State.sameEngine_port_inputs _ _ _).symm

/-- What FEEDs that carry the bytes `bs` between them leave of the engine: a finalized engine turns them away (41_feed.md R122). -/
def State.fedWith (s : State) (bs : List Byte) : State := if s.fin then s else absorb bs s

theorem State.fedWith_of_fin {s : State} (hf : s.fin = true) (bs : List Byte) : s.fedWith bs = s := if_pos hf

theorem State.fedWith_of_not_fin {s : State} (hf : s.fin = false) (bs : List Byte) : s.fedWith bs = Machine.absorb bs s := by
  simp [State.fedWith, hf]

theorem State.fedWith_append (s : State) (bs cs : List Byte) : s.fedWith (bs ++ cs) = (s.fedWith bs).fedWith cs := by
  cases hf : s.fin with
  | true => simp only [State.fedWith_of_fin hf]
  | false =>
    have hf' : (Machine.absorb bs s).fin = false := (absorb_frame bs s).1.trans hf
    rw [State.fedWith_of_not_fin hf, State.fedWith_of_not_fin hf, State.fedWith_of_not_fin hf', absorb_append]

theorem State.SameEngine.fedWith {s e : State} (h : s.SameEngine e) (bs : List Byte) :
    (s.fedWith bs).SameEngine (e.fedWith bs) := by
  cases hf : s.fin with
  | true => rwa [State.fedWith_of_fin hf, State.fedWith_of_fin (h.fin ▸ hf)]
  | false =>
    rw [State.fedWith_of_not_fin hf, State.fedWith_of_not_fin (h.fin ▸ hf)]
    exact h.absorb bs

/-- One FEED leaves what its message bytes leave. -/
theorem exec_of_isFeed {i : Instr} (hi : isFeed i = true) (s : State) :
    ∃ t, exec i s = .next t ∧ t.SameEngine (s.fedWith (messageOf i)) := by
  cases i with
  | feed n data =>
    obtain ⟨st, hst⟩ := execFeed_next n data s (of_decide_eq_true hi)
    exact ⟨_, hst, (State.sameEngine_respond _ st 0).symm⟩
  | _ => cases hi

/-- FEEDs one after another leave what the bytes they carry leave, wherever one FEED ends and the next begins. -/
theorem runCommands_of_isFeed (cs : List Instr) : ∀ s : State, (∀ i ∈ cs, isFeed i = true) →
    ∃ t, runCommands cs s = .next t ∧ t.SameEngine (s.fedWith (cs.flatMap messageOf)) := by
  induction cs with
  | nil =>
    intro s _
    refine ⟨s, rfl, ?_⟩
    have hnil : s.fedWith [] = s := ite_self s
    rw [List.flatMap_nil, hnil]
    exact ⟨rfl, rfl, rfl, rfl, rfl, rfl, rfl, rfl⟩
  | cons i cs ih =>
    intro s hcs
    obtain ⟨hi, hrest⟩ := List.forall_mem_cons.1 hcs
    obtain ⟨t, ht, hst⟩ := exec_of_isFeed hi s
    obtain ⟨u, hu, htu⟩ := ih t hrest
    refine ⟨u, (runCommands_cons ht cs).trans hu, ?_⟩
    rw [List.flatMap_cons, State.fedWith_append]
    exact htu.trans (hst.fedWith _)

/-- Settles O49: each sequence of FEEDs leaves what the bytes it carries leave. -/
theorem chunkingDoesNotMatter : Obligations.ChunkingDoesNotMatter := by
  intro s cs ds hcs hds heq
  obtain ⟨t, ht, hst⟩ := runCommands_of_isFeed cs s hcs
  obtain ⟨u, hu, hsu⟩ := runCommands_of_isFeed ds s hds
  exact ⟨t, u, ht, hu, hst.trans (heq ▸ hsu.symm)⟩

/-! ### PEEK and FINAL (R60) -/

theorem exec_result_of_cor {r : Instr} (hr : r = .peek ∨ r = .final) {s : State} (hc : s.cor = true) :
    exec r s = .next (s.respond .inputTooLong 0) := by
  obtain rfl | rfl := hr
  · exact congrArg Host.Outcome.next (if_pos hc)
  · exact congrArg Host.Outcome.next (if_pos hc)

theorem exec_result_of_fin {r : Instr} (hr : r = .peek ∨ r = .final) {s : State} (hc : s.cor = false) (hf : s.fin = true) :
    exec r s = .next ((s.setDig s.h).respond .success 0) := by
  obtain rfl | rfl := hr
  · simp [exec, execPeek, peekState, hc, hf]
  · simp [exec, execFinal, finalState, hc, hf]

theorem exec_peek_of_open {s : State} (hc : s.cor = false) (hf : s.fin = false) :
    exec .peek s = .next ((s.setDig (padAndCompress s.h s.lh s.ll s.buf s.idx.val).1).respond .success 0) := by
  simp [exec, execPeek, peekState, State.snapshot, Snapshot.finish, hc, hf]

theorem exec_final_of_open {s : State} (hc : s.cor = false) (hf : s.fin = false) :
    exec .final s = .next ((s.finalize.setDig s.finalize.h).respond .success 0) := by
  simp [exec, execFinal, finalState, hc, hf]

/-- Settles O20: a corrupted engine answers both alike and is left as it was, a finalized one copies H for both, and otherwise both
take the digest of the same padding; the engine PEEK leaves pads the same again, and the one FINAL leaves is finalized. -/
theorem resultCommandsAgreeAndRepeat : Obligations.ResultCommandsAgreeAndRepeat := by
  intro s
  cases hc : s.cor with
  | true =>
    exact ⟨_, _, exec_result_of_cor (.inl rfl) hc, exec_result_of_cor (.inr rfl) hc, rfl, rfl,
      exec_result_of_cor (.inl rfl) hc, exec_result_of_cor (.inr rfl) hc⟩
  | false =>
    cases hf : s.fin with
    | true =>
      exact ⟨_, _, exec_result_of_fin (.inl rfl) hc hf, exec_result_of_fin (.inr rfl) hc hf, rfl, rfl,
        exec_result_of_fin (.inl rfl) hc hf, exec_result_of_fin (.inr rfl) hc hf⟩
    | false =>
      exact ⟨_, _, exec_peek_of_open hc hf, exec_final_of_open hc hf, rfl, rfl,
        exec_peek_of_open hc hf, exec_result_of_fin (.inr rfl) hc rfl⟩

/-! ### The halves of LEN (R59) -/

theorem exec_of_keepsLen {i : Instr} (hi : keepsLen i = true) (s : State) :
    ∃ t, exec i s = .next t ∧ t.len = s.len := by
  obtain ⟨t, ht, hcase⟩ := exec_cases i s
  refine ⟨t, ht, ?_⟩
  cases hcase with
  | responds st v _ => rfl
  | clears h => subst h; cases hi
  | feeds n data h _ _ _ _ => subst h; cases hi
  | peeks _ _ _ => rfl
  | copies _ _ _ => rfl
  | finalizes h _ _ => subst h; cases hi

/-- Commands that keep LEN keep it in a row, whatever commands come after them. -/
theorem runCommands_append_of_keepsLen (r : List Instr) (cs : List Instr) : ∀ s : State, (∀ i ∈ cs, keepsLen i = true) →
    ∃ t, runCommands (cs ++ r) s = runCommands r t ∧ t.len = s.len := by
  induction cs with
  | nil => intro s _; exact ⟨s, rfl, rfl⟩
  | cons i cs ih =>
    intro s hcs
    obtain ⟨hi, hrest⟩ := List.forall_mem_cons.1 hcs
    obtain ⟨t, ht, hst⟩ := exec_of_keepsLen hi s
    obtain ⟨u, hu, htu⟩ := ih t hrest
    exact ⟨u, (runCommands_cons ht (cs ++ r)).trans hu, htu.trans hst⟩

theorem exec_rdlen_zero (s : State) : exec (.rdlen 0) s = .next (s.respond .success s.ll) := rfl

theorem exec_rdlen_one (s : State) : exec (.rdlen 1) s = .next (s.respond .success s.lh) := rfl

theorem State.lh_eq_of_len_eq {s t : State} (h : t.len = s.len) : t.lh = s.lh := by
  have hnat := congrArg BitVec.toNat h
  rw [State.len_toNat, State.len_toNat] at hnat
  have := s.ll.isLt
  have := t.ll.isLt
  apply BitVec.eq_of_toNat_eq
  omega

/-- Settles O24: RDLEN 0 answers LL, the commands after it keep LEN, so RDLEN 1 answers the LH of the same LEN. -/
theorem rdlenPairIsConsistent : Obligations.RdlenPairIsConsistent := by
  intro s cs hcs
  obtain ⟨t, hrun, hlen⟩ := runCommands_append_of_keepsLen [.rdlen 1] cs (s.respond .success s.ll) hcs
  have hlh : t.lh = s.lh := State.lh_eq_of_len_eq (hlen.trans (s.len_respond _ _))
  refine ⟨_, _, s.ll, t.lh, exec_rdlen_zero s, rfl, hrun.trans (runCommands_cons (exec_rdlen_one t) []), rfl, ?_⟩
  rw [hlh, State.len]

end Sys2Proof.Machine
end

section
/-! PROOFS. Encoding (30_encoding.md): decode against the opcode map and the encoder (R70 to R77), the assembler's commands
(R79, R80), and the responses commands give (R71, R72, R75). -/

namespace Sys2Proof

/-! ### The fields of a word (R70) -/

/-- Bits 39:32 are OP and ARG side by side. -/
theorem opField_append_argField (w : CmdWord) : opField w ++ argField w = w.extractLsb' 32 8 :=
  BitVec.extractLsb'_append_extractLsb'_eq_extractLsb' rfl

/-- A word is its own fields, packed. -/
theorem packFields_fields (w : CmdWord) : packFields (opField w) (argField w) (dataField w) = w := by
  rw [packFields, opField_append_argField]
  exact BitVec.extractLsb'_append_extractLsb' (w := 8) (len := 32)

theorem opField_eq_extract (w : CmdWord) : opField w = (w.extractLsb' 32 8 : BitVec 8).extractLsb' 4 4 := by
  ext k hk
  simp [opField, show 4 + k < 8 by omega, ← Nat.add_assoc]

theorem argField_eq_extract (w : CmdWord) : argField w = (w.extractLsb' 32 8 : BitVec 8).extractLsb' 0 4 := by
  ext k hk
  simp [argField, show k < 8 by omega]

/-! ### Decode against the opcode map (R73, R74) -/

/-- The fields are those of command `i`: its OP, its ARG in the legal range of R73, and its DATA where it has DATA as an operand,
in FEED. -/
structure IsWordOf (i : Instr) (op arg : BitVec 4) (data : Word) : Prop where
  op_eq : i.opcode = op
  arg_eq : i.arg = arg
  data_eq : i.opcode = 2 → i.dataBits = data
  wellFormed : i.WellFormed = true

/-- A line of R74 that gives the right command where its ARG is legal gives the right command or ILLEGAL. -/
theorem isWordOf_ite {p : Prop} [Decidable p] {i : Instr} {op arg : BitVec 4} {data : Word}
    (h : p → IsWordOf i op arg data) (hne : (if p then i else .illegal) ≠ .illegal) :
    IsWordOf (if p then i else .illegal) op arg data := by
  by_cases hp : p
  · rw [if_pos hp]
    exact h hp
  · exact absurd (if_neg hp) hne

/-- What the fields decode to, unless it is ILLEGAL, is the command they are the fields of. -/
theorem isWordOf_decodeFields {op arg : BitVec 4} {data : Word} :
    decodeFields op arg data ≠ .illegal → IsWordOf (decodeFields op arg data) op arg data := by
  have eq_of {v x : BitVec 4} (h : x.toNat = v.toNat) : v = x := (BitVec.eq_of_toNat_eq h).symm
  unfold decodeFields
  split
  case h_1 hop | h_2 hop | h_4 hop | h_5 hop | h_8 hop =>
    exact isWordOf_ite fun h => ⟨eq_of hop, eq_of h, fun h2 => absurd h2 (by decide), rfl⟩
  case h_3 hop => exact isWordOf_ite fun h => ⟨eq_of hop, rfl, fun _ => rfl, decide_eq_true h⟩
  case h_6 hop | h_7 hop =>
    exact isWordOf_ite fun h => ⟨eq_of hop, rfl, fun h2 => absurd h2 (by simp [Instr.opcode]), decide_eq_true h⟩
  case h_9 => exact fun h => absurd rfl h

theorem isWordOf_decode {w : CmdWord} (h : decode w ≠ .illegal) : IsWordOf (decode w) (opField w) (argField w) (dataField w) :=
  isWordOf_decodeFields h

/-- The fields of a well-formed command decode to it. -/
theorem decodeFields_of_wellFormed {i : Instr} (hw : i.WellFormed = true) : decodeFields i.opcode i.arg i.dataBits = i := by
  cases i with
  | feed n data => exact if_pos (of_decide_eq_true hw)
  | rddig k => exact if_pos (of_decide_eq_true hw)
  | rdlen k => exact if_pos (of_decide_eq_true hw)
  | _ => rfl

theorem decode_packFields (op arg : BitVec 4) (data : Word) : decode (packFields op arg data) = decodeFields op arg data := by
  obtain ⟨hop, harg, hdata⟩ := Laws.EncodesItsFields.fields_packFields op arg data
  rw [decode, hop, harg, hdata]

/-- Settles O32: the word holds the command's fields, and they decode to the command. -/
theorem decodeOfEncodeIsTheCommand : Obligations.DecodeOfEncodeIsTheCommand := by
  intro i hw
  rw [encode, decode_packFields, decodeFields_of_wellFormed hw]

/-- The words no line of R74 takes (R75). -/
theorem decodeFields_eq_illegal_iff (op arg : BitVec 4) (data : Word) : decodeFields op arg data = .illegal ↔
    8 ≤ op.toNat ∨
      ((op.toNat = 0 ∨ op.toNat = 1 ∨ op.toNat = 3 ∨ op.toNat = 4 ∨ op.toNat = 7) ∧ arg.toNat ≠ 0) ∨
      ((op.toNat = 2 ∨ op.toNat = 5) ∧ 5 ≤ arg.toNat) ∨ (op.toNat = 6 ∧ 2 ≤ arg.toNat) := by
  unfold decodeFields
  split
  case h_9 =>
    refine iff_of_true rfl (.inl ?_)
    simp only [imp_false] at *
    omega
  all_goals simp only [ite_eq_right_iff, reduceCtorEq, imp_false]; omega

/-- Settles O30: each clause is a line of `decodeFields`, and the rest is ILLEGAL. -/
theorem decodeFollowsTheOpcodeMap : Obligations.DecodeFollowsTheOpcodeMap := by
  intro w
  refine ⟨?_, ?_, ?_, ?_, ?_, ?_, ?_, ?_, decodeFields_eq_illegal_iff _ _ _⟩
  all_goals
    intro hop harg
    change (opField w).toNat = _ at hop
    rw [decode, decodeFields, hop]
    exact if_pos harg

/-- Settles O33: what is no ILLEGAL has its word's fields, and ILLEGAL is well-formed. -/
theorem encodeOfDecodeKeepsTheWord : Obligations.EncodeOfDecodeKeepsTheWord := by
  intro w
  by_cases hill : decode w = .illegal
  · exact ⟨hill ▸ rfl, fun h => absurd hill h, fun _ h => absurd hill h⟩
  · obtain ⟨hop, harg, hdata, hw⟩ := isWordOf_decode hill
    obtain ⟨hop', harg', -⟩ := Laws.EncodesItsFields.fields_packFields (decode w).opcode (decode w).arg (decode w).dataBits
    refine ⟨hw, fun _ => ?_, fun h2 _ => ?_⟩
    · rw [← opField_append_argField, ← opField_append_argField, encode, hop', harg', hop, harg]
    · rw [encode, hop, harg, hdata (hop.trans h2), packFields_fields]

/-- Settles O34: each word is decoded. -/
theorem exampleWordsDecode : Obligations.ExampleWordsDecode := by
  unfold Obligations.ExampleWordsDecode
  decide

/-! ### Bits of DATA that do not count (R77) -/

theorem decodeFields_congr_data {op arg : BitVec 4} (hop : op ≠ 2) (d e : Word) :
    decodeFields op arg d = decodeFields op arg e := by
  unfold decodeFields
  split
  case h_3 h => exact absurd (BitVec.eq_of_toNat_eq h) hop
  all_goals rfl

end Sys2Proof

namespace Sys2Proof.Machine

/-- The bytes of a FEED, for every count: no more than DATA has. -/
theorem feedOperand_eq_map (n : BitVec 4) (data : Word) :
    feedOperand n data = (List.range (min n.toNat 4)).map (byteOf data) := by
  rw [← List.take_range, List.map_take]
  rfl

/-- FEED sees DATA through its message bytes alone. -/
theorem execFeed_congr {n : BitVec 4} {d e : Word} (h : feedOperand n d = feedOperand n e) (s : State) :
    execFeed n d s = execFeed n e s := by
  rw [execFeed, execFeed, feedLegal, feedLegal, h]

/-- Settles O31: OP and ARG alone decide what a word other than a FEED decodes to, and a FEED's bytes are those before its
count. -/
theorem ignoredDataBitsDoNotMatter : Obligations.IgnoredDataBitsDoNotMatter := by
  refine ⟨fun w v h hop => ?_, fun s n d e h => execFeed_congr ?_ s⟩
  · have hopw : opField w = opField v := by rw [opField_eq_extract, opField_eq_extract, h]
    have hargw : argField w = argField v := by rw [argField_eq_extract, argField_eq_extract, h]
    exact (decodeFields_congr_data hop _ (dataField v)).trans (congrArg₂ (decodeFields · · _) hopw hargw)
  · rw [feedOperand_eq_map, feedOperand_eq_map]
    refine List.map_congr_left fun j hj => h j ?_
    have := List.mem_range.1 hj
    omega

/-! ### The response word (R71, R72) -/

theorem Response.word_rdata (r : Response) : r.word.extractLsb' 0 32 = r.rdata := by
  apply BitVec.eq_of_getLsbD_eq
  intro k hk
  simp only [Response.word, BitVec.getLsbD_extractLsb', BitVec.getLsbD_append]
  simp [hk]

theorem Response.word_status (r : Response) : r.word.extractLsb' 32 3 = r.status.code := by
  apply BitVec.eq_of_getLsbD_eq
  intro k hk
  simp only [Response.word, BitVec.getLsbD_extractLsb', BitVec.getLsbD_append]
  simp [hk]

/-- Settles O35: both fields of the word are the response's, and every code but that of NULL_POINTER reads back. -/
theorem responseWordHoldsStatusAndData : Obligations.ResponseWordHoldsStatusAndData := by
  intro r
  have code {st : Status} (h : r.status = st) : r.word.extractLsb' 32 3 = st.code := h ▸ r.word_status
  refine ⟨r.word_rdata, code, code, code, code, fun hst => ?_⟩
  rw [Response.ofWord, r.word_status, r.word_rdata]
  obtain ⟨st, v⟩ := r
  cases st with
  | nullPointer => exact absurd rfl hst
  | _ => rfl

/-! ### The assembler (R79, R80) -/

/-- The bytes of a FEED whose DATA is read from four bytes are the first of them. -/
theorem messageOf_feed_be32 (n : BitVec 4) (b0 b1 b2 b3 : Byte) :
    messageOf (.feed n (be32 b0 b1 b2 b3)) = [b0, b1, b2, b3].take n.toNat := by
  rw [messageOf, feedOperand, bytesBe32_be32]

theorem isFeed_of_mem_expandFeeds (bs : List Byte) : ∀ i ∈ expandFeeds bs, isFeed i = true := by
  induction bs using expandFeeds.induct with
  | case1 b0 b1 b2 b3 rest ih => exact List.forall_mem_cons.2 ⟨rfl, ih⟩
  | case5 => exact nofun
  | _ => exact List.forall_mem_singleton.2 rfl

theorem flatMap_messageOf_expandFeeds (bs : List Byte) : (expandFeeds bs).flatMap messageOf = bs := by
  induction bs using expandFeeds.induct with
  | case1 b0 b1 b2 b3 rest ih =>
    rw [expandFeeds, List.flatMap_cons, messageOf_feed_be32, ih]
    rfl
  | case5 => rfl
  | _ =>
    rw [expandFeeds, List.flatMap_singleton, messageOf_feed_be32]
    rfl

/-- Settles O36: by the groups of four that `expandFeeds` takes. -/
theorem feedsSpellsItsString : Obligations.FeedsSpellsItsString :=
  fun bs => ⟨isFeed_of_mem_expandFeeds bs, flatMap_messageOf_expandFeeds bs⟩

/-- A command of the opcode map: well-formed, and not ILLEGAL. -/
def IsCommand (i : Instr) : Prop := i.WellFormed = true ∧ i ≠ .illegal

theorem isCommand_of_isFeed {i : Instr} (h : isFeed i = true) : IsCommand i := by
  cases i with
  | feed n data => exact ⟨h, nofun⟩
  | _ => cases h

/-- A checked line that is accepted passed its check. -/
theorem forall_isCommand_of_ite {p : Prop} [Decidable p] {js is : List Instr} (hjs : p → ∀ i ∈ js, IsCommand i)
    (h : (if p then some js else none) = some is) : ∀ i ∈ is, IsCommand i := by
  by_cases hp : p
  · rw [if_pos hp] at h
    injection h with h
    exact h ▸ hjs hp
  · rw [if_neg hp] at h
    cases h

theorem toNat_ofNat_le {k b : Nat} (h : k ≤ b) : (BitVec.ofNat 4 k).toNat ≤ b :=
  BitVec.toNat_ofNat k 4 ▸ (Nat.mod_le _ _).trans h

theorem isCommand_feed {n : Nat} (h : n ≤ 4) (data : Word) : IsCommand (.feed (BitVec.ofNat 4 n) data) :=
  isCommand_of_isFeed (decide_eq_true (toNat_ofNat_le h))

theorem isCommand_rddig {k : Nat} (h : k ≤ 4) : IsCommand (.rddig (BitVec.ofNat 4 k)) :=
  ⟨decide_eq_true (toNat_ofNat_le h), nofun⟩

theorem isCommand_rdlen {k : Nat} (h : k ≤ 1) : IsCommand (.rdlen (BitVec.ofNat 4 k)) :=
  ⟨decide_eq_true (toNat_ofNat_le h), nofun⟩

theorem forall_isCommand_assembleFeed {n data : Nat} {is : List Instr} (h : assembleFeed n data = some is) :
    ∀ i ∈ is, IsCommand i :=
  forall_isCommand_of_ite (fun hn => List.forall_mem_singleton.2 (isCommand_feed hn.1 _)) h

/-- Settles O37: a checked operand is in its range, FEEDS gives FEEDs, and the other lines stand for fixed commands. -/
theorem assembledCommandsAreWellFormed : Obligations.AssembledCommandsAreWellFormed := by
  intro l is h
  cases l with
  | feed n data => exact forall_isCommand_assembleFeed h
  | feedb b => exact forall_isCommand_assembleFeed h
  | feedw w => exact forall_isCommand_assembleFeed h
  | rddig k => exact forall_isCommand_of_ite (fun hk => List.forall_mem_singleton.2 (isCommand_rddig hk)) h
  | rdlen k => exact forall_isCommand_of_ite (fun hk => List.forall_mem_singleton.2 (isCommand_rdlen hk)) h
  | feeds bs =>
    injection h with h
    exact fun i hi => isCommand_of_isFeed (isFeed_of_mem_expandFeeds bs i (h ▸ hi))
  | _ =>
    injection h with h
    subst h
    decide

/-! ### Responses (R71, R72, R75) -/

/-- Settles O28: `rejectWord` is the response alone. -/
theorem illegalOnlyResponds : Obligations.IllegalOnlyResponds := fun _ => rfl

/-- RDDIG, RDLEN or RDSTAT: the only commands whose response carries data. -/
def IsRead (i : Instr) : Prop := (∃ k, i = .rddig k) ∨ (∃ k, i = .rdlen k) ∨ i = .rdstat

/-- The responses a command can give. -/
inductive ResponseCase (i : Instr) (s : State) : Response → Prop where
  | succeeds : ResponseCase i s ⟨.success, 0⟩
  | reads (v : Word) : IsRead i → ResponseCase i s ⟨.success, v⟩
  /-- A corrupted engine, or a FEED that corrupts it (60_exceptions.md R231). -/
  | tooLong : ResponseCase i s ⟨.inputTooLong, 0⟩
  /-- A FEED in a finalized engine (41_feed.md R122). -/
  | turnedAway (n : BitVec 4) (data : Word) : i = .feed n data → 0 < n.toNat → s.fin = true →
      ResponseCase i s ⟨.stateError, 0⟩
  /-- ILLEGAL (R75), or a term with an operand out of range (log entry 6). -/
  | rejected : i = .illegal ∨ i.WellFormed = false → ResponseCase i s ⟨.illegalCmd, 0⟩

/-- The state offers a response that the command can give. -/
def Answers (i : Instr) (s t : State) : Prop := ∃ r, t.response = some r ∧ ResponseCase i s r

theorem Answers.respond {i : Instr} {s : State} {st : Status} {v : Word} (h : ResponseCase i s ⟨st, v⟩) (t : State) :
    Answers i s (t.respond st v) := ⟨_, rfl, h⟩

theorem wordAt_isSome (x : Words5) {k : Nat} (h : k ≤ 4) : (wordAt x k).isSome = true := by
  interval_cases k <;> rfl

theorem lenHalf_isSome (s : State) {k : BitVec 4} (h : k.toNat ≤ 1) : (lenHalf s k).isSome = true := by
  obtain h0 | h1 : k.toNat = 0 ∨ k.toNat = 1 := by omega
  · rw [lenHalf, h0]
    rfl
  · rw [lenHalf, h1]
    rfl

/-- A read answers what its operand selects, and no legal operand selects nothing. -/
theorem answers_answer {i : Instr} {s : State} {x : Option Word} (hr : IsRead i) (hx : i.WellFormed = true → x.isSome = true) :
    Answers i s (s.answer x) := by
  cases x with
  | some v => exact .respond (.reads v hr) s
  | none => exact .respond (.rejected (.inr (Bool.eq_false_iff.2 fun hw => nomatch hx hw))) s

/-- FEED, by its checks in the order of 60_exceptions.md R235. -/
theorem answers_feed (n : BitVec 4) (data : Word) (s : State) :
    Answers (.feed n data) s (if n.toNat ≤ 4 then feedLegal n data s else s.rejectWord) := by
  unfold feedLegal
  split_ifs with h4 h0 hf hc
  · exact .respond .succeeds s
  · exact .respond (.turnedAway n data rfl (Nat.pos_of_ne_zero h0) hf) s
  · exact .respond .tooLong s
  · simp only [feedBytes_snd _ (Bool.eq_false_iff.2 hc)]
    split_ifs
    · exact .respond .tooLong _
    · exact .respond .succeeds _
  · have hw : (Instr.feed n data).WellFormed = false := decide_eq_false h4
    exact .respond (.rejected (.inr hw)) s

theorem answers_peek (s : State) : Answers .peek s (peekState s) := by
  unfold peekState
  split_ifs
  · exact .respond .tooLong s
  · exact .respond .succeeds _
  · exact .respond .succeeds _

theorem answers_final (s : State) : Answers .final s (finalState s) := by
  unfold finalState
  split_ifs
  · exact .respond .tooLong s
  · exact .respond .succeeds _
  · exact .respond .succeeds _

/-- Every command, in every state, answers with a response it can give. -/
theorem exec_answers (i : Instr) (s : State) : ∃ t, exec i s = .next t ∧ Answers i s t := by
  cases i with
  | nop => exact ⟨_, rfl, .respond .succeeds s⟩
  | init => exact ⟨_, rfl, .respond .succeeds _⟩
  | feed n data => exact ⟨_, rfl, answers_feed n data s⟩
  | peek => exact ⟨_, rfl, answers_peek s⟩
  | final => exact ⟨_, rfl, answers_final s⟩
  | rddig k => exact ⟨_, rfl, answers_answer (.inl ⟨k, rfl⟩) fun hw => wordAt_isSome _ (of_decide_eq_true hw)⟩
  | rdlen k => exact ⟨_, rfl, answers_answer (.inr (.inl ⟨k, rfl⟩)) fun hw => lenHalf_isSome s (of_decide_eq_true hw)⟩
  | rdstat => exact ⟨_, rfl, .respond (.reads _ (.inr (.inr rfl))) s⟩
  | illegal => exact ⟨_, rfl, .respond (.rejected (.inl rfl)) s⟩

/-- Settles O41: each response a command can give is in its range. -/
theorem responsesStayInTheirRange : Obligations.ResponsesStayInTheirRange := by
  intro i s t r h hr
  obtain ⟨u, hu, r', hr', hcase⟩ := exec_answers i s
  obtain rfl : u = t := Host.Outcome.next.inj (hu.symm.trans h)
  obtain rfl : r' = r := Option.some.inj (hr'.symm.trans hr)
  cases hcase with
  | succeeds => exact ⟨nofun, fun h0 => absurd rfl h0, nofun, nofun⟩
  | reads v hi => exact ⟨nofun, fun _ => ⟨rfl, hi⟩, nofun, nofun⟩
  | tooLong => exact ⟨nofun, fun h0 => absurd rfl h0, nofun, nofun⟩
  | turnedAway n data hi hn hf => exact ⟨nofun, fun h0 => absurd rfl h0, fun _ => ⟨⟨n, data, hi, hn⟩, hf⟩, nofun⟩
  | rejected hi => exact ⟨nofun, fun h0 => absurd rfl h0, nofun, fun _ => hi⟩

end Sys2Proof.Machine
end

section
/-! PROOFS. INIT and NOP (40_init_nop.md): the state each of them leaves (R101, R105). -/

namespace Sys2Proof.Machine

theorem exec_init (s : State) : exec .init s = .next (s.clearSession.respond .success 0) := rfl

theorem exec_nop (s : State) : exec .nop s = .next (s.respond .success 0) := rfl

/-- Settles O2: INIT clears the session and responds; BUF then lists no byte, and the pins are not part of the session. -/
theorem initRestoresTheInitialValues : Obligations.InitRestoresTheInitialValues := fun s =>
  ⟨_, exec_init s, rfl, rfl, rfl, fun a _ => Memory.read_allZero a, rfl, rfl, rfl, rfl, rfl, rfl⟩

/-- Settles O4: a response sets the port alone. -/
theorem nopOnlyResponds : Obligations.NopOnlyResponds := exec_nop

end Sys2Proof.Machine
end

section
/-! PROOFS. FEED (41_feed.md): the answer of each of its checks (R121 to R123), one byte (R124, R125, R127), the whole command
(R120), the overflow (R126), what it leaves alone, and LEN over a session (R128). -/

namespace Sys2Proof.Machine

/-! ### The checks of FEED, in the order of 60_exceptions.md R235 -/

theorem exec_feed_zero {n : BitVec 4} (h0 : n.toNat = 0) (data : Word) (s : State) :
    exec (.feed n data) s = .next (s.respond .success 0) := by
  simp [exec, execFeed, feedLegal, h0]

theorem exec_feed_of_fin {n : BitVec 4} (hpos : 0 < n.toNat) (hn : n.toNat ≤ 4) (data : Word) {s : State} (hf : s.fin = true) :
    exec (.feed n data) s = .next (s.respond .stateError 0) := by
  simp [exec, execFeed, feedLegal, hn, Nat.ne_of_gt hpos, hf, State.raise_eq_respond]

theorem exec_feed_of_cor {n : BitVec 4} (hpos : 0 < n.toNat) (hn : n.toNat ≤ 4) (data : Word) {s : State} (hf : s.fin = false)
    (hc : s.cor = true) : exec (.feed n data) s = .next (s.respond .inputTooLong 0) := by
  simp [exec, execFeed, feedLegal, hn, Nat.ne_of_gt hpos, hf, hc, State.raise_eq_respond]

/-- A count above 4 is no FEED (30_encoding.md R75). -/
theorem exec_feed_of_large {n : BitVec 4} (hn : ¬ n.toNat ≤ 4) (data : Word) (s : State) :
    exec (.feed n data) s = .next s.rejectWord := by
  rw [exec, execFeed, if_neg hn]

/-- A FEED that passes the checks accepts its bytes, and reports INPUT_TOO_LONG when they set COR. -/
theorem exec_feed_of_open {n : BitVec 4} (hn : n.toNat ≤ 4) (data : Word) {s : State} (hf : s.fin = false) (hc : s.cor = false) :
    exec (.feed n data) s = .next ((absorb (feedOperand n data) s).respond
      (if (absorb (feedOperand n data) s).cor then .inputTooLong else .success) 0) :=
  execFeed_accepting n data s hn hf hc

/-- Settles O5: the check for no bytes comes first. -/
theorem feedOfNoBytesSucceeds : Obligations.FeedOfNoBytesSucceeds :=
  fun s data => exec_feed_zero rfl data s

/-- Settles O6: FIN is looked at before COR. -/
theorem feedFailsWhenFinalizedOrCorrupted : Obligations.FeedFailsWhenFinalizedOrCorrupted :=
  fun _ _ data hpos hn => ⟨exec_feed_of_fin hpos hn data, exec_feed_of_cor hpos hn data⟩

/-! ### One byte -/

theorem overflows_eq_false_of_len_lt {s : State} (hl : s.len.toNat + 8 < 2 ^ 64) : overflows s.lh s.ll = false := by
  rw [← Bool.not_eq_true, State.overflows_iff_len]
  exact Nat.ne_of_lt hl

theorem exec_feed_one (data : Word) {s : State} (hf : s.fin = false) (hc : s.cor = false) :
    exec (.feed 1 data) s = .next ((s.acceptByte (byteOf data 0)).respond
      (if overflows s.lh s.ll then .inputTooLong else .success) 0) := by
  have hbytes : absorb (feedOperand 1 data) s = s.acceptByte (byteOf data 0) := absorb_cons hc _ []
  rw [exec_feed_of_open (by decide) data hf hc, hbytes, State.acceptByte_cor, hc, Bool.false_or]

theorem exec_feed_one_of_len_lt (data : Word) {s : State} (hf : s.fin = false) (hc : s.cor = false)
    (hl : s.len.toNat + 8 < 2 ^ 64) :
    exec (.feed 1 data) s = .next ((s.acceptByte (byteOf data 0)).respond .success 0) := by
  rw [exec_feed_one data hf hc, overflows_eq_false_of_len_lt hl]
  rfl

theorem State.read_acceptByte (s : State) (b : Byte) (a : Nat) :
    (s.acceptByte b).buf.read a = if a = s.idx.val then b else s.buf.read a := by
  rw [State.acceptByte_buf, Memory.read_write]

theorem State.acceptByte_lh_of_carry {s : State} {b : Byte} (h : (s.acceptByte b).ll = 0) : (s.acceptByte b).lh = s.lh + 1 := by
  rw [State.acceptByte_ll] at h
  rw [State.acceptByte_lh, nextLH, if_pos h]

theorem State.acceptByte_lh_of_no_carry {s : State} {b : Byte} (h : (s.acceptByte b).ll ≠ 0) : (s.acceptByte b).lh = s.lh := by
  rw [State.acceptByte_ll] at h
  rw [State.acceptByte_lh, nextLH, if_neg h]

theorem State.acceptByte_cor_of_len_lt {s : State} (b : Byte) (hc : s.cor = false) (hl : s.len.toNat + 8 < 2 ^ 64) :
    (s.acceptByte b).cor = false := by
  rw [State.acceptByte_cor, hc, overflows_eq_false_of_len_lt hl, Bool.false_or]

/-- Settles O7: one accepted byte, short of the end of the block. -/
theorem feedStoresAndCountsOneByte : Obligations.FeedStoresAndCountsOneByte := by
  intro s data hf hc hidx hl
  refine ⟨_, exec_feed_one_of_len_lt data hf hc hl, s.read_acceptByte _, ?_, s.acceptByte_ll _, State.acceptByte_lh_of_carry,
    State.acceptByte_lh_of_no_carry, ?_, (s.acceptByte_fin _).trans hf, State.acceptByte_cor_of_len_lt _ hc hl,
    s.acceptByte_dig _, rfl, s.acceptByte_inputs _⟩
  · rw [State.respond_idx, State.acceptByte_idx_val, Nat.mod_eq_of_lt (by omega)]
  · rw [State.respond_h, State.acceptByte_h, if_neg (Nat.ne_of_lt hidx)]

/-- Settles O8: one accepted byte, the last of the block. -/
theorem feedCompressesAFullBlock : Obligations.FeedCompressesAFullBlock := by
  intro s data hf hc hidx hl
  refine ⟨_, exec_feed_one_of_len_lt data hf hc hl, hidx ▸ s.read_acceptByte _, ?_, ?_, s.acceptByte_ll _,
    State.acceptByte_lh_of_carry, State.acceptByte_lh_of_no_carry, (s.acceptByte_fin _).trans hf,
    State.acceptByte_cor_of_len_lt _ hc hl, s.acceptByte_dig _, rfl, s.acceptByte_inputs _⟩
  · rw [State.respond_h, State.respond_buf, State.acceptByte_h, if_pos hidx, State.acceptByte_buf]
  · rw [State.respond_idx, State.acceptByte_idx, hidx]
    rfl

/-! ### Byte by byte -/

/-- The response of the command before plays no part in a command. -/
theorem exec_respond (i : Instr) (s : State) (st : Status) (v : Word) : exec i (s.respond st v) = exec i s := by
  obtain ⟨t, ht, hcase⟩ := exec_cases i s
  refine (exec_port_inputs i (.resp ⟨st, v⟩) s.inputs ht).trans ?_
  rw [ht, ← hcase.port_inputs.2]

/-- Settles O9: the checks turn both FEEDs away alike; past them, the first byte is accepted, and the rest only when it leaves COR
clear. -/
theorem feedWorksByteByByte : Obligations.FeedWorksByteByByte := by
  intro s t n data hpos hn h
  have hsucc : (n + 1).toNat = n.toNat + 1 := by bv_omega
  cases hf : s.fin with
  | true =>
    obtain rfl := Host.Outcome.next.inj ((exec_feed_of_fin (by decide) (by decide) data hf).symm.trans h)
    exact ⟨nofun, fun _ => exec_feed_of_fin (by omega) (by omega) data hf⟩
  | false =>
    cases hc : s.cor with
    | true =>
      obtain rfl := Host.Outcome.next.inj ((exec_feed_of_cor (by decide) (by decide) data hf hc).symm.trans h)
      exact ⟨nofun, fun _ => exec_feed_of_cor (by omega) (by omega) data hf hc⟩
    | false =>
      obtain rfl := Host.Outcome.next.inj ((exec_feed_one data hf hc).symm.trans h)
      rw [exec_respond, exec_feed_of_open (by omega) data hf hc, feedOperand_succ data hn, absorb_cons hc]
      cases ho : overflows s.lh s.ll with
      | true =>
        have hcor : (s.acceptByte (byteOf data 0)).cor = true := by simp [ho]
        rw [absorb_of_cor hcor, if_pos hcor]
        exact ⟨nofun, fun _ => rfl⟩
      | false =>
        have hfin : (s.acceptByte (byteOf data 0)).fin = false := by simp [hf]
        have hcor : (s.acceptByte (byteOf data 0)).cor = false := by simp [hc, ho]
        exact ⟨fun _ => (exec_feed_of_open (by omega) _ hfin hcor).symm, fun hr => absurd rfl hr⟩

/-! ### The whole command -/

/-- Bytes written up to the end of the block, below and from where they start. -/
theorem Memory.read_writeBytes_take {bs : List Byte} (m : Memory) {a x : Nat} (hx : x < 64) (hfull : 64 ≤ a + bs.length) :
    (m.writeBytes a (bs.take (64 - a))).read x = if x < a then m.read x else bs.getD (x - a) 0 := by
  rw [Memory.read_writeBytes, List.length_take]
  by_cases h : x < a
  · rw [if_neg (by omega), if_pos h]
  · rw [if_pos (by omega), if_neg h, List.getD_eq_getElem?_getD, List.getElem?_take_of_lt (by omega),
      List.getD_eq_getElem?_getD]

/-- Bytes that reach the end of the block: the block is compressed with those that fill it, and the others fit below (R127). -/
theorem absorb_h_of_full {bs : List Byte} {s : State} (hc : s.cor = false) (h8 : s.ll.toNat % 8 = 0)
    (hl : s.len.toNat + 8 * bs.length < 2 ^ 64) (hfull : 64 ≤ s.idx.val + bs.length) (h64 : bs.length ≤ 64) :
    (absorb bs s).h = compress s.h (s.buf.writeBytes s.idx.val (bs.take (64 - s.idx.val))) := by
  have hi := s.idx.isLt
  have htake : (bs.take (64 - s.idx.val)).length = 64 - s.idx.val := List.length_take_of_le (by omega)
  have hdrop : (bs.drop (64 - s.idx.val)).length = bs.length - (64 - s.idx.val) := List.length_drop
  obtain ⟨hh, -, hidx⟩ := absorb_fills (bs.take (64 - s.idx.val)) hc h8 (by omega) (by omega)
  obtain ⟨hlen, hll, hcor⟩ := absorb_len (bs.take (64 - s.idx.val)) hc h8 (by omega)
  have hidx0 : (absorb (bs.take (64 - s.idx.val)) s).idx.val = 0 := congrArg Fin.val hidx
  obtain ⟨hrest, -, -⟩ := absorb_fits (bs.drop (64 - s.idx.val)) hcor hll (by omega) (by omega)
  rw [← hh, ← hrest, ← absorb_append, List.take_append_drop]

/-- Settles O10: field by field from what accepting the bytes leaves, none of them overflowing LEN. -/
theorem feedCompletes : Obligations.FeedCompletes := by
  intro s n data hn hf hc h8 hl
  have hbytes := feedOperand_length data hn
  rw [← hbytes] at hl
  obtain ⟨hlen, -, hcor⟩ := absorb_len (feedOperand n data) hc h8 hl
  obtain ⟨hfin, hdig, -, hpins⟩ := absorb_frame (feedOperand n data) s
  have hexec := exec_feed_of_open hn data hf hc
  rw [hcor] at hexec
  refine ⟨_, hexec, rfl, ?_, ?_, fun j hj => ?_, fun a ha => ?_, fun hfit => ?_, fun hfull => ?_, hfin.trans hf, hcor,
    hdig, hpins⟩
  · rw [State.len_respond, hlen, hbytes]
  · rw [State.respond_idx, absorb_idx (feedOperand n data) hc h8 hl, hbytes]
  · rw [State.respond_buf, absorb_read_stored _ hc h8 hl (by omega) j (by omega), feedOperand_getD data hn hj, byteOf]
  · rw [State.respond_buf, absorb_read_other _ _ _ (by rwa [hbytes])]
  · obtain ⟨hh, -, -⟩ := absorb_fits (feedOperand n data) hc h8 hl (by omega)
    exact hh
  · refine ⟨_, fun a ha => ?_, absorb_h_of_full hc h8 hl (by omega) (by omega)⟩
    rw [Memory.read_writeBytes_take s.buf ha (by omega)]
    by_cases hlow : a < s.idx.val
    · rw [if_pos hlow, if_pos hlow]
    · rw [if_neg hlow, if_neg hlow, feedOperand_getD data hn (by omega), byteOf]

/-! ### The overflow (R126) -/

theorem State.halves_of_len_eq_zero {s : State} (h : s.len = 0) : s.lh = 0 ∧ s.ll = 0 := by
  have hnat : s.len.toNat = 0 := congrArg BitVec.toNat h
  rw [State.len_toNat] at hnat
  exact ⟨by bv_omega, by bv_omega⟩

theorem feedOperand_take {n : BitVec 4} (data : Word) {k : Nat} (hk : k ≤ n.toNat) :
    (feedOperand n data).take k = (bytesBe32 data).take k := by
  rw [feedOperand, List.take_take, Nat.min_eq_left hk]

/-- Bytes after those that set COR are dropped. -/
theorem absorb_eq_take_of_cor {bs : List Byte} {s : State} {k : Nat} (h : (absorb (bs.take k) s).cor = true) :
    absorb bs s = absorb (bs.take k) s := by
  conv_lhs => rw [← List.take_append_drop k bs, absorb_append, absorb_of_cor h]

/-- Settles O11: byte `j` fills the block as it makes LEN reach 2^64 (10_state.md R31 item 2), and it sets COR. -/
theorem feedOverflowCorrupts : Obligations.FeedOverflowCorrupts := by
  intro s n data j hs hf hc hn hj hl
  have htake : ((feedOperand n data).take (j + 1)).length = j + 1 :=
    List.length_take_of_le (by rw [feedOperand_length data hn]; omega)
  have hcor : (absorb ((feedOperand n data).take (j + 1)) s).cor = true :=
    (absorb_cor_iff _ hc hs.ll_bytes).2 (by omega)
  have hfull : s.idx.val + ((feedOperand n data).take (j + 1)).length = 64 := by
    have hidx := hs.idx_len
    omega
  obtain ⟨hh, hbuf, hidx⟩ := absorb_fills _ hc hs.ll_bytes (by omega) hfull
  obtain ⟨hfin, hdig, -, hpins⟩ := absorb_frame ((feedOperand n data).take (j + 1)) s
  obtain ⟨hlh, hll⟩ := State.halves_of_len_eq_zero ((hs.absorb _ hf).cor_len hcor).1
  have hexec := exec_feed_of_open hn data hf hc
  rw [absorb_eq_take_of_cor hcor, if_pos hcor] at hexec
  refine ⟨_, hexec, rfl, hcor, hlh, hll, hidx, ?_, ?_, hfin.trans hf, hdig, hpins⟩
  · rw [State.respond_buf, hbuf, feedOperand_take data hj]
  · rw [State.respond_h, State.respond_buf, hh, hbuf]

/-! ### What a FEED leaves alone -/

/-- Settles O12: a FEED only responds or accepts its bytes, and accepting them touches BUF where they go. -/
theorem feedFrame : Obligations.FeedFrame := by
  intro s t n data h
  cases exec_case h with
  | responds st v _ => exact ⟨rfl, rfl, rfl, id, fun _ _ => rfl⟩
  | feeds n data hi _ hn _ hc =>
    obtain ⟨rfl, rfl⟩ := Instr.feed.inj hi
    obtain ⟨hfin, hdig, -, hpins⟩ := absorb_frame (feedOperand n data) s
    refine ⟨hdig, hfin, hpins, fun h => by simp [hc] at h, fun a ha => ?_⟩
    exact absorb_read_other _ s a (by rwa [feedOperand_length data hn])
  | clears hi => cases hi
  | peeks hi _ _ => cases hi
  | copies hi _ _ => obtain hi | hi := hi <;> cases hi
  | finalizes hi _ _ => cases hi

/-! ### FEED after PEEK (R129) -/

/-- DIG plays no part in a FEED, whichever check it meets. -/
theorem exec_feed_setDig (n : BitVec 4) (data : Word) (s : State) (x : Words5) :
    ∃ v, exec (.feed n data) s = .next v ∧ exec (.feed n data) (s.setDig x) = .next (v.setDig x) := by
  by_cases hn : n.toNat ≤ 4
  · by_cases h0 : n.toNat = 0
    · exact ⟨_, exec_feed_zero h0 data s, exec_feed_zero h0 data _⟩
    · have hpos : 0 < n.toNat := Nat.pos_of_ne_zero h0
      cases hf : s.fin with
      | true => exact ⟨_, exec_feed_of_fin hpos hn data hf, exec_feed_of_fin hpos hn data hf⟩
      | false =>
        cases hc : s.cor with
        | true => exact ⟨_, exec_feed_of_cor hpos hn data hf hc, exec_feed_of_cor hpos hn data hf hc⟩
        | false =>
          refine ⟨_, exec_feed_of_open hn data hf hc, (exec_feed_of_open (s := s.setDig x) hn data hf hc).trans ?_⟩
          rw [absorb_setDig]
          rfl
  · exact ⟨_, exec_feed_of_large hn data s, exec_feed_of_large hn data _⟩

/-- PEEK writes DIG and responds, and no more. -/
theorem exec_peek_writes_dig {s t : State} (h : exec .peek s = .next t) : ∃ st v, t = (s.setDig t.dig).respond st v := by
  cases exec_case h with
  | responds st v _ => exact ⟨st, v, rfl⟩
  | clears hi => cases hi
  | feeds n data hi _ _ _ _ => cases hi
  | peeks _ _ _ => exact ⟨_, _, rfl⟩
  | copies _ _ _ => exact ⟨_, _, rfl⟩
  | finalizes hi _ _ => cases hi

/-- Settles O21: FEED sees neither of the two things PEEK changes, DIG and the response. -/
theorem feedAfterPeekContinuesTheMessage : Obligations.FeedAfterPeekContinuesTheMessage := by
  intro s t n data h
  obtain ⟨st, v, ht⟩ := exec_peek_writes_dig h
  obtain ⟨u, hu, hdig⟩ := exec_feed_setDig n data s t.dig
  refine ⟨_, u, ?_, hu, rfl⟩
  rw [ht, exec_respond]
  exact hdig

/-! ### LEN over a session (R128) -/

/-- Only INIT clears COR (60_exceptions.md R231). -/
theorem ExecCase.cor_of_cor {i : Instr} {s t : State} (h : ExecCase i s t) (hi : continuesSession i = true)
    (hc : s.cor = true) : t.cor = true := by
  cases h with
  | responds st v _ => exact hc
  | clears h => subst h; cases hi
  | feeds n data _ _ _ _ h => simp [hc] at h
  | peeks _ h _ => simp [hc] at h
  | copies _ h _ => simp [hc] at h
  | finalizes _ h _ => simp [hc] at h

/-- A command that leaves COR clear has not made the message too long. -/
theorem State.HoldsMessage.length_lt_of_exec {s t : State} {m : List Byte} (hm : s.HoldsMessage m) {i : Instr}
    (hw : i.WellFormed = true) (h : ExecCase i s t) (hc : t.cor = false) : 8 * (m ++ messageOf i).length < 2 ^ 64 := by
  have hlen := hm.len
  have hlt := s.len.isLt
  have silent (h0 : messageOf i = []) : 8 * (m ++ messageOf i).length < 2 ^ 64 := by
    rw [h0, List.append_nil]
    omega
  cases h with
  | responds st v ho => exact silent (hm.messageOf_eq_nil hw ho)
  | clears hi => exact silent (hi ▸ rfl)
  | feeds n data hi _ _ _ hopen =>
    have hshort : ¬ 2 ^ 64 ≤ s.len.toNat + 8 * (feedOperand n data).length := fun hlong => by
      simp [(absorb_cor_iff (feedOperand n data) hopen hm.ll_mod).2 hlong] at hc
    rw [hi, messageOf, List.length_append]
    omega
  | peeks hi _ _ => exact silent (hi ▸ rfl)
  | copies hi _ _ => exact silent (by obtain rfl | rfl := hi <;> rfl)
  | finalizes hi _ _ => exact silent (hi ▸ rfl)

/-- A session's commands continue the message for as long as COR stays clear. -/
theorem runCommands_holdsMessage (cs : List Instr) : ∀ {s : State} {m : List Byte}, (s.cor = false → s.HoldsMessage m) →
    (∀ i ∈ cs, i.WellFormed = true ∧ continuesSession i = true) →
    ∃ t, runCommands cs s = .next t ∧ (t.cor = false → t.HoldsMessage (m ++ cs.flatMap messageOf)) := by
  induction cs with
  | nil => intro s m hs _; exact ⟨s, rfl, by simpa using hs⟩
  | cons i cs ih =>
    intro s m hs hcs
    obtain ⟨⟨hw, hi⟩, hrest⟩ := List.forall_mem_cons.1 hcs
    obtain ⟨t, ht, hcase⟩ := exec_cases i s
    have hkeeps : t.cor = false → t.HoldsMessage (m ++ messageOf i) := by
      intro hc
      have hopen : s.cor = false := Bool.eq_false_iff.2 fun h => by simp [hcase.cor_of_cor hi h] at hc
      obtain ⟨u, hu, hmu⟩ := (hs hopen).exec hw hi ((hs hopen).length_lt_of_exec hw hcase hc)
      exact Host.Outcome.next.inj (hu.symm.trans ht) ▸ hmu
    obtain ⟨u, hu, hmu⟩ := ih hkeeps hrest
    refine ⟨u, (runCommands_cons ht cs).trans hu, ?_⟩
    rwa [List.flatMap_cons, ← List.append_assoc]

/-- Settles O50: INIT starts the empty message, and LEN counts the bits of the message the engine holds. -/
theorem lenCountsTheBytesFed : Obligations.LenCountsTheBytesFed := by
  intro s cs hcs
  have hinit : (s.clearSession.respond .success 0).HoldsMessage [] := (clearSession_holdsMessage s).respond _ _
  obtain ⟨t, ht, hm⟩ := runCommands_holdsMessage cs (fun _ => hinit) hcs
  exact ⟨t, (runCommands_cons (exec_init s) cs).trans ht, fun hc => ⟨(hm hc).fin, (hm hc).len⟩⟩

end Sys2Proof.Machine
end

section
/-! PROOFS. PEEK and FINAL (42_result_padding.md): the padded blocks byte by byte (R145 to R149), and the state each of the two
leaves in each of its cases (R141 to R143, R151 to R153). -/

namespace Sys2Proof.Machine

/-! ### The length field (R145 step 4, R148) -/

theorem bytesBe32_getD (w : Word) {j : Nat} (hj : j < 4) : (bytesBe32 w).getD j 0 = byteOf w j := by
  have : j = 0 ∨ j = 1 ∨ j = 2 ∨ j = 3 := by omega
  rcases this with rfl | rfl | rfl | rfl <;> rfl

/-- The two halves of LEN, each big-endian and the high one first, are the bytes of LEN big-endian. -/
theorem bytesBe32_append_getD (lh ll : Word) {k : Nat} (hk : k < 8) :
    (bytesBe32 lh ++ bytesBe32 ll).getD k 0 = (lh ++ ll).extractLsb' (8 * (7 - k)) 8 := by
  by_cases h4 : k < 4
  · rw [List.getD_append _ _ _ _ h4, bytesBe32_getD lh h4, BitVec.extractLsb'_append_eq_of_le (by omega), byteOf,
      show 8 * (7 - k) - 32 = 24 - 8 * k by omega]
  · rw [List.getD_append_right _ _ _ _ (Nat.le_of_not_lt h4), bytesBe32_length, bytesBe32_getD ll (by omega),
      BitVec.extractLsb'_append_eq_of_add_le (by omega), byteOf, show 24 - 8 * (k - 4) = 8 * (7 - k) by omega]

/-- Where the length field stands in a padded block. -/
theorem bytesBe32_append_getD_sub (lh ll : Word) {a : Nat} (h56 : ¬ a < 56) (ha : a < 64) :
    (bytesBe32 lh ++ bytesBe32 ll).getD (a - 56) 0 = (lh ++ ll).extractLsb' (8 * (63 - a)) 8 := by
  rw [bytesBe32_append_getD lh ll (by omega), show 7 - (a - 56) = 63 - a by omega]

/-! ### The padded blocks (R146, R149) -/

/-- Settles O16: the one block is the marked BUF, zero-filled up to the length field. -/
theorem paddingFitsOneBlock : Obligations.PaddingFitsOneBlock := by
  intro hin lh ll buf idx hidx
  refine ⟨_, padAndCompress_one hidx, fun a ha => ?_⟩
  rw [read_oneBlock buf idx lh ll ha hidx]
  by_cases h56 : a < 56
  · simp only [if_pos h56]
  · rw [bytesBe32_append_getD_sub lh ll h56 ha]

/-- Settles O17: the first block is the marked BUF, zero-filled to its end, and the second is blank but for the length field. -/
theorem paddingTakesTwoBlocks : Obligations.PaddingTakesTwoBlocks := by
  intro hin lh ll buf idx h56 _
  refine ⟨_, _, padAndCompress_two h56, fun a ha => read_firstOfTwoBlocks buf idx ha, fun a ha => ?_⟩
  rw [read_secondOfTwoBlocks lh ll ha]
  by_cases hlow : a < 56
  · rw [if_pos hlow, if_pos hlow]
  · rw [if_neg hlow, if_neg hlow, bytesBe32_append_getD_sub lh ll hlow ha]

/-! ### The cases of PEEK and FINAL -/

/-- Settles O18: a failing PEEK responds alone, and a successful one writes DIG alone, from H or from the padded copy. -/
theorem peekWritesOnlyTheDigest : Obligations.PeekWritesOnlyTheDigest := fun _ =>
  ⟨exec_result_of_cor (.inl rfl), exec_result_of_fin (.inl rfl), exec_peek_of_open⟩

/-- Settles O19: the last case is `State.finalize` with H copied to DIG; BUF then lists no byte, and COR is as it was, clear. -/
theorem finalPadsInPlaceAndErases : Obligations.FinalPadsInPlaceAndErases := fun _ =>
  ⟨exec_result_of_cor (.inr rfl), exec_result_of_fin (.inr rfl), fun hc hf =>
    ⟨_, exec_final_of_open hc hf, rfl, rfl, Memory.read_allZero, rfl, rfl, rfl, rfl, hc, rfl, rfl⟩⟩

end Sys2Proof.Machine
end

section
/-! PROOFS. The compression (43_compression.md): the independent equations of the schedule and the rounds against the model's
(R170 to R178), and the round functions at their corners (R181). -/

namespace Sys2Proof.Machine

/-! ### The model's operations in the rules' terms (R170, R173, R176) -/

/-- `rotl` is the library's rotation wherever 00_scope.md R12 gives it a meaning. -/
theorem rotl_eq_rotateLeft (a : Word) {n : Nat} (hn : n < 32) : rotl a n = a.rotateLeft n := by
  rw [rotl, BitVec.rotateLeft_def, Nat.mod_eq_of_lt hn]

/-- The constant of round t by the range of t, in place of its group `t div 20`. -/
theorem roundConstant_div (t : Nat) : roundConstant (t / 20) =
    if t < 20 then 0x5A827999 else if t < 40 then 0x6ED9EBA1 else if t < 60 then 0x8F1BBCDC else 0xCA62C1D6 := by
  by_cases h20 : t < 20
  · rw [if_pos h20, show t / 20 = 0 by omega, roundConstant]
  by_cases h40 : t < 40
  · rw [if_neg h20, if_pos h40, show t / 20 = 1 by omega, roundConstant]
  by_cases h60 : t < 60
  · rw [if_neg h20, if_neg h40, if_pos h60, show t / 20 = 2 by omega, roundConstant]
  · obtain ⟨g, hg⟩ : ∃ g, t / 20 = g + 3 := Nat.exists_eq_add_of_le' (by omega)
    rw [if_neg h20, if_neg h40, if_neg h60, hg]
    rfl

/-- Words that start with the big-endian reads of the block are the ones the schedule starts from (R173). -/
theorem blockWords_eq_map {blk : Memory} {W : Nat → Word}
    (hW : ∀ t, t < 16 → W t = blk.read (4 * t) ++ blk.read (4 * t + 1) ++ blk.read (4 * t + 2) ++ blk.read (4 * t + 3)) :
    blockWords blk = (List.range 16).map W :=
  List.map_congr_left fun t ht => (be32_eq_append _ _ _ _).trans (hW t (List.mem_range.1 ht)).symm

/-- Any words and working variables that follow the model's own schedule and rounds give the compression (R175, R178). -/
theorem compress_of_recurrence {hin : Words5} {blk : Memory} {W : Nat → Word} {V : Nat → Working}
    (hfirst : blockWords blk = (List.range 16).map W)
    (hlater : ∀ t, 16 ≤ t → t < 80 → W t = rotl (W (t - 3) ^^^ W (t - 8) ^^^ W (t - 14) ^^^ W (t - 16)) 1)
    (hstart : V 0 = ⟨hin.w0, hin.w1, hin.w2, hin.w3, hin.w4⟩)
    (hround : ∀ t, t < 80 → V (t + 1) = compressRound t (W t) (V t)) :
    compress hin blk =
      ⟨hin.w0 + (V 80).a, hin.w1 + (V 80).b, hin.w2 + (V 80).c, hin.w3 + (V 80).d, hin.w4 + (V 80).e⟩ := by
  have hrounds : compressRounds 0 ((List.range 80).map W) (V 0) = V 80 := by
    rw [List.range_eq_range', compressRounds_of_recurrence hround 80 0 (by omega)]
  rw [compress, compressWords, schedule_of_recurrence hfirst hlater, ← hstart, hrounds]

/-- Settles O14: the rules' equations are those of `schedule` and `compressRound`, which determine W and V. -/
theorem compressFollowsTheRounds : Obligations.CompressFollowsTheRounds := by
  intro hin blk W V hfirst hlater hstart hround
  refine compress_of_recurrence (blockWords_eq_map hfirst) (fun t h16 h80 => ?_) hstart fun t ht => ?_
  · rw [rotl_eq_rotateLeft _ (by omega), hlater t h16 h80]
  · rw [hround t ht, compressRound, rotl_eq_rotateLeft _ (by omega), rotl_eq_rotateLeft _ (by omega), roundConstant_div,
      roundFunction]

/-! ### The round functions, one equation per kind (R174) -/

theorem roundFunction_selection {t : Nat} (h : t < 20) (b c d : Word) :
    roundFunction t b c d = (b &&& c) ||| (~~~b &&& d) := if_pos h

theorem roundFunction_majority {t : Nat} (h40 : 40 ≤ t) (h60 : t < 60) (b c d : Word) :
    roundFunction t b c d = (b &&& c) ||| (b &&& d) ||| (c &&& d) := by
  rw [roundFunction, if_neg (by omega), if_neg (by omega), if_pos h60]

theorem roundFunction_parity {t : Nat} (h : 20 ≤ t ∧ t < 40 ∨ 60 ≤ t) (b c d : Word) :
    roundFunction t b c d = b ^^^ c ^^^ d := by
  rw [roundFunction, if_neg (by omega)]
  by_cases h40 : t < 40
  · rw [if_pos h40]
  · rw [if_neg h40, if_neg (by omega)]

/-- Every round is of one of the three kinds. -/
theorem round_kinds (t : Nat) : t < 20 ∨ (40 ≤ t ∧ t < 60) ∨ (20 ≤ t ∧ t < 40 ∨ 60 ≤ t) := by omega

/-! ### The corners (R181) -/

/-- The two terms of the selection function have no bit in common: one needs the bit of B set, the other clear. -/
theorem selection_terms_disjoint (b c d : Word) : (b &&& c) &&& (~~~b &&& d) = 0#32 := by
  ext i hi
  cases hb : b[i] <;> simp [hb]

/-- On words with no bit in common `|` is `^`. -/
theorem or_eq_xor_of_disjoint {x y : Word} (h : x &&& y = 0#32) : x ||| y = x ^^^ y := by
  ext i hi
  have hbit : (x[i] && y[i]) = false := by rw [← BitVec.getElem_and, h, BitVec.getElem_zero]
  rw [BitVec.getElem_or, BitVec.getElem_xor]
  revert hbit
  cases x[i] <;> simp

/-- Three equal words give that word, in every kind of round. -/
theorem roundFunction_self (t : Nat) (x : Word) : roundFunction t x x x = x := by
  rcases round_kinds t with h | ⟨h40, h60⟩ | h
  · rw [roundFunction_selection h, BitVec.and_self, BitVec.and_comm, BitVec.and_not_self]
    exact BitVec.or_zero
  · rw [roundFunction_majority h40 h60, BitVec.and_self, BitVec.or_self, BitVec.or_self]
  · rw [roundFunction_parity h, BitVec.xor_self, BitVec.zero_xor]

/-- B all ones selects C. -/
theorem roundFunction_selection_allOnes {t : Nat} (h : t < 20) (c d : Word) : roundFunction t 0xFFFFFFFF c d = c := by
  rw [roundFunction_selection h, show (0xFFFFFFFF : Word) = BitVec.allOnes 32 from rfl, BitVec.allOnes_and,
    BitVec.not_allOnes, BitVec.zero_and, BitVec.or_zero]

theorem roundFunction_majority_swap_left {t : Nat} (h40 : 40 ≤ t) (h60 : t < 60) (b c d : Word) :
    roundFunction t b c d = roundFunction t c b d := by
  rw [roundFunction_majority h40 h60, roundFunction_majority h40 h60, BitVec.and_comm b c, BitVec.or_assoc,
    BitVec.or_comm (b &&& d), BitVec.or_assoc]

theorem roundFunction_majority_swap_right {t : Nat} (h40 : 40 ≤ t) (h60 : t < 60) (b c d : Word) :
    roundFunction t b c d = roundFunction t b d c := by
  rw [roundFunction_majority h40 h60, roundFunction_majority h40 h60, BitVec.and_comm c d, BitVec.or_comm (b &&& c)]

/-- Settles O15: the selection's terms are disjoint, and the corner values and the symmetry hold in each kind of round. -/
theorem roundFunctionsAtTheirCorners : Obligations.RoundFunctionsAtTheirCorners := by
  intro t b c d
  have hdisj := selection_terms_disjoint b c d
  refine ⟨fun h => ⟨?_, ?_, roundFunction_selection_allOnes h c d⟩, fun _ => ⟨roundFunction_self t 0, roundFunction_self t _⟩,
    fun h40 h60 => ⟨roundFunction_majority_swap_left h40 h60 b c d, roundFunction_majority_swap_right h40 h60 b c d⟩⟩
  · rw [roundFunction_selection h, or_eq_xor_of_disjoint hdisj]
  · rw [roundFunction_selection h, BitVec.add_eq_or_of_and_eq_zero _ _ hdisj]

end Sys2Proof.Machine
end

section
/-! PROOFS. Readout (44_readout.md): the serializer as the bytes of its words in a row (R200, R201), and the responses of the reads
RDDIG (R203) and RDLEN (R205). -/

namespace Sys2Proof.Machine

/-! ### The serializer (R200, R201) -/

/-- The five words in index order. -/
def fiveWords (x : Words5) : List Word := [x.w0, x.w1, x.w2, x.w3, x.w4]

theorem fiveWords_getElem? (x : Words5) : ∀ i, (fiveWords x)[i]? = wordAt x i
  | 0 | 1 | 2 | 3 | 4 | _ + 5 => rfl

theorem serialize_eq_flatMap (x : Words5) : serialize x = (fiveWords x).flatMap bytesBe32 := by
  simp [serialize, fiveWords]

theorem bytesBe32_getElem? (w : Word) {j : Nat} (hj : j < 4) : (bytesBe32 w)[j]? = some (byteOf w j) := by
  have hlen : j < (bytesBe32 w).length := hj
  rw [List.getElem?_eq_getElem hlen, ← List.getD_eq_getElem _ 0 hlen, bytesBe32_getD w hj]

/-- Of words written big-endian in a row, each takes four bytes: byte `4i + j` is byte `j` of word `i`. -/
theorem flatMap_bytesBe32_getElem? (ws : List Word) {j : Nat} (hj : j < 4) :
    ∀ i, (ws.flatMap bytesBe32)[4 * i + j]? = ws[i]?.map fun w => byteOf w j := by
  induction ws with
  | nil => intro i; rfl
  | cons w ws ih =>
    intro i
    rw [List.flatMap_cons]
    cases i with
    | zero =>
      rw [Nat.mul_zero, Nat.zero_add, List.getElem?_append_left (show j < (bytesBe32 w).length from hj), bytesBe32_getElem? w hj]
      rfl
    | succ i =>
      have hskip : 4 * (i + 1) + j - 4 = 4 * i + j := by omega
      rw [List.getElem?_append_right (by rw [bytesBe32_length]; omega), bytesBe32_length, hskip, ih i, List.getElem?_cons_succ]

/-- Settles O26: the serializer writes the words `wordAt` selects one after another, four bytes each. -/
theorem serializerIsBigEndian : Obligations.SerializerIsBigEndian := by
  refine fun x => ⟨rfl, fun i j _ hj => ?_⟩
  rw [serialize_eq_flatMap, flatMap_bytesBe32_getElem? _ hj, fiveWords_getElem?]
  rfl

/-! ### The read commands (R203, R205) -/

/-- RDDIG answers the word of DIG its operand selects. -/
theorem exec_rddig_of_wordAt {i : BitVec 4} {s : State} {v : Word} (h : wordAt s.dig i.toNat = some v) :
    exec (.rddig i) s = .next (s.respond .success v) :=
  congrArg (fun x => Host.Outcome.next (s.answer x)) h

/-- Settles O22: each index from 0 to 4 selects its word of DIG. -/
theorem rddigReturnsTheWord : Obligations.RddigReturnsTheWord := fun _ =>
  ⟨exec_rddig_of_wordAt rfl, exec_rddig_of_wordAt rfl, exec_rddig_of_wordAt rfl, exec_rddig_of_wordAt rfl,
    exec_rddig_of_wordAt rfl⟩

/-- Settles O23: operand 0 selects LL and operand 1 selects LH. -/
theorem rdlenReturnsTheHalf : Obligations.RdlenReturnsTheHalf := fun s => ⟨exec_rdlen_zero s, exec_rdlen_one s⟩

end Sys2Proof.Machine
end

section
/-! PROOFS. Errors (60_exceptions.md): every command has a result (R242), the one status it reports (R235), what a failing command
leaves alone (R236), and sticky corruption (R231). -/

namespace Sys2Proof.Machine

/-! ### Every command has a result (R242) -/

/-- Settles O38: each case of a command is a next state with a response. -/
theorem everyCommandHasAResult : Obligations.EveryCommandHasAResult := by
  intro i s
  obtain ⟨t, ht, hcase⟩ := exec_cases i s
  obtain ⟨⟨r, hr⟩, hpins⟩ := hcase.port_inputs
  exact ⟨t, r, ht, hr, hpins⟩

/-! ### The status a command reports (R235) -/

/-- The command ends with a response of this status. -/
def Reports (i : Instr) (s : State) (st : Status) : Prop := ∃ t v, exec i s = .next t ∧ t.response = some ⟨st, v⟩

theorem Reports.of_exec {i : Instr} {s t : State} {st : Status} {v : Word} (h : exec i s = .next (t.respond st v)) :
    Reports i s st := ⟨_, v, h, rfl⟩

/-- The bytes of a FEED set COR exactly when they reach the ceiling. -/
theorem absorb_feedOperand_cor {n : BitVec 4} (data : Word) {s : State} (hn : n.toNat ≤ 4) (hc : s.cor = false)
    (h8 : s.ll.toNat % 8 = 0) : (absorb (feedOperand n data) s).cor = s.reachesCeiling n.toNat := by
  rw [Bool.eq_iff_iff, absorb_cor_iff _ hc h8, feedOperand_length data hn, State.reachesCeiling, decide_eq_true_iff]

/-- FEED, by its checks in their order. -/
theorem reports_feed {n : BitVec 4} (data : Word) {s : State} (hn : n.toNat ≤ 4) (h8 : s.ll.toNat % 8 = 0) :
    Reports (.feed n data) s (expectedStatus s (.feed n data)) := by
  rw [expectedStatus]
  by_cases h0 : n.toNat = 0
  · rw [if_pos h0]
    exact .of_exec (exec_feed_zero h0 data s)
  · have hpos : 0 < n.toNat := Nat.pos_of_ne_zero h0
    rw [if_neg h0]
    cases hf : s.fin with
    | true => exact .of_exec (exec_feed_of_fin hpos hn data hf)
    | false =>
      cases hc : s.cor with
      | true => exact .of_exec (exec_feed_of_cor hpos hn data hf hc)
      | false =>
        rw [← absorb_feedOperand_cor data hn hc h8]
        exact .of_exec (exec_feed_of_open hn data hf hc)

/-- PEEK and FINAL fail in a corrupted engine alone. -/
theorem reports_result {r : Instr} (hr : r = .peek ∨ r = .final) (s : State) :
    Reports r s (if s.cor then .inputTooLong else .success) := by
  cases hc : s.cor with
  | true => exact .of_exec (exec_result_of_cor hr hc)
  | false =>
    cases hf : s.fin with
    | true => exact .of_exec (exec_result_of_fin hr hc hf)
    | false =>
      obtain rfl | rfl := hr
      · exact .of_exec (exec_peek_of_open hc hf)
      · exact .of_exec (exec_final_of_open hc hf)

/-- A read whose operand selects a word succeeds. -/
theorem reports_of_answer {i : Instr} {s : State} {x : Option Word} (h : exec i s = .next (s.answer x)) (hx : x.isSome = true) :
    Reports i s .success := by
  obtain ⟨v, rfl⟩ := Option.isSome_iff_exists.1 hx
  exact .of_exec h

/-- Every well-formed command reports the status of the priority order. -/
theorem reports_expectedStatus {i : Instr} {s : State} (hw : i.WellFormed = true) (h8 : s.ll.toNat % 8 = 0) :
    Reports i s (expectedStatus s i) := by
  cases i with
  | nop => exact .of_exec (exec_nop s)
  | init => exact .of_exec (exec_init s)
  | feed n data => exact reports_feed data (of_decide_eq_true hw) h8
  | peek => exact reports_result (.inl rfl) s
  | final => exact reports_result (.inr rfl) s
  | rddig k => exact reports_of_answer rfl (wordAt_isSome s.dig (of_decide_eq_true hw))
  | rdlen k => exact reports_of_answer rfl (lenHalf_isSome s (of_decide_eq_true hw))
  | rdstat => exact .of_exec (t := s) rfl
  | illegal => exact .of_exec (t := s) rfl

/-- Settles O39: each command, by its checks, reports the first condition that applies. -/
theorem statusFollowsThePriority : Obligations.StatusFollowsThePriority := fun _ _ => reports_expectedStatus

/-! ### What a failing command leaves alone (R236) -/

theorem status_of_response_respond {s : State} {st : Status} {v : Word} {r : Response}
    (h : (s.respond st v).response = some r) : r.status = st := by
  obtain rfl := Option.some.inj h
  rfl

/-- A response with another status than SUCCESS leaves the engine as it was, or a FEED of an engine that was not corrupted has
just corrupted it. -/
theorem ExecCase.sameEngine_or_corrupts {i : Instr} {s t : State} {r : Response} (h : ExecCase i s t)
    (hr : t.response = some r) (hfail : r.status ≠ .success) :
    s.SameEngine t ∨ ((∃ n d, i = .feed n d) ∧ r.status = .inputTooLong ∧ s.cor = false ∧ t.cor = true) := by
  cases h with
  | responds st v _ => exact .inl (s.sameEngine_respond st v)
  | feeds n data hi _ _ _ hc =>
    have hstatus := status_of_response_respond hr
    by_cases hcor : (absorb (feedOperand n data) s).cor = true
    · exact .inr ⟨⟨n, data, hi⟩, hstatus.trans (if_pos hcor), hc, hcor⟩
    · exact absurd (hstatus.trans (if_neg hcor)) hfail
  | clears _ => exact absurd (status_of_response_respond hr) hfail
  | peeks _ _ _ => exact absurd (status_of_response_respond hr) hfail
  | copies _ _ _ => exact absurd (status_of_response_respond hr) hfail
  | finalizes _ _ _ => exact absurd (status_of_response_respond hr) hfail

/-- Settles O40: only a successful read answers with data, and only a FEED that overflows LEN fails and changes the engine. -/
theorem failingCommandsChangeNothing : Obligations.FailingCommandsChangeNothing := by
  intro i s t r h hr hfail
  obtain ⟨-, hdata, -, -⟩ := responsesStayInTheirRange i s t r h hr
  have hzero : r.rdata = 0 := by
    by_contra h0
    exact hfail (hdata h0).1
  exact ⟨hzero, (exec_case h).sameEngine_or_corrupts hr hfail⟩

/-! ### Sticky corruption (R231) -/

/-- In a corrupted engine every command but INIT only responds. -/
theorem ExecCase.eq_respond_of_cor {i : Instr} {s t : State} (h : ExecCase i s t) (hc : s.cor = true) (hi : i ≠ .init) :
    ∃ st v, t = s.respond st v := by
  cases h with
  | responds st v _ => exact ⟨st, v, rfl⟩
  | clears h => exact absurd h hi
  | feeds _ _ _ _ _ _ h => simp [hc] at h
  | peeks _ h _ => simp [hc] at h
  | copies _ h _ => simp [hc] at h
  | finalizes _ h _ => simp [hc] at h

/-- A clock edge that clears COR resets or runs INIT. -/
theorem StepCase.rst_or_init_of_cor_cleared {s t : State} (h : StepCase s t) (hc : s.cor = true) (ht : t.cor = false) :
    s.nextPins.rst = true ∨ ∃ w, s.port = .exec w 0 ∧ decode w = .init := by
  have hkept : t.cor ≠ s.cor := by simp [hc, ht]
  cases h with
  | rst hr => exact .inl hr
  | runs w t _ hp hcase =>
    refine .inr ⟨w, hp, ?_⟩
    by_contra hi
    obtain ⟨st, v, rfl⟩ := hcase.eq_respond_of_cor hc hi
    exact hkept rfl
  | waits _ => exact absurd rfl hkept
  | accepts _ _ _ => exact absurd rfl hkept
  | counts _ _ _ _ => exact absurd rfl hkept
  | delivers _ _ _ _ => exact absurd rfl hkept

/-- Settles O42: in a corrupted engine the status is the one of R235 with FIN clear (10_state.md R31 item 1), every command but INIT
only responds, and the edges that clear COR are those that reset or run INIT. -/
theorem corruptionIsSticky : Obligations.CorruptionIsSticky := by
  refine ⟨fun i s hs hc hw hi => ?_, fun s _ => ⟨_, exec_init s, rfl, rfl⟩, fun s p _ hp => ⟨_, step_of_rst hp, rfl⟩,
    fun s t _ hc h ht => (step_cases h).rst_or_init_of_cor_cleared hc ht⟩
  have hf : s.fin = false := by simpa [hc] using hs.not_both
  obtain ⟨t, v, ht, hr⟩ := reports_expectedStatus hw hs.ll_bytes
  obtain ⟨st, w, rfl⟩ := (exec_case ht).eq_respond_of_cor hc hi
  refine ⟨_, _, ht, hr, s.sameEngine_respond st w, hc, ?_⟩
  cases i with
  | init => exact absurd rfl hi
  | feed n data => simp [expectedStatus, hf, hc]
  | peek => exact if_pos hc
  | final => exact if_pos hc
  | _ => rfl

end Sys2Proof.Machine
end

section
/-! PROOFS. Reset, the port and hazards (70_reset_and_hazards.md): one clock edge by the port state it finds (R260, R261, R265), the
latency (R270), the work of a FEED (R272), the host's duty (R267), and what crosses the port over a run (R266, R267). -/

namespace Sys2Proof.Machine

/-! ### One clock edge (R265) -/

theorem State.nextPins_of_inputs {s : State} {p : Pins} {rest : List Pins} (h : s.inputs = p :: rest) : s.nextPins = p := by
  rw [State.nextPins, h, List.headD_cons]

theorem State.takePins_of_inputs {s : State} {p : Pins} {rest : List Pins} (h : s.inputs = p :: rest) :
    s.takePins = { s with inputs := rest } := by
  rw [takePins_eq, h, List.tail_cons]

section
variable {s : State}

theorem step_of_powerUp (hr : s.nextPins.rst = false) (hp : s.port = .powerUp) :
    step s = if s.nextPins.cmdValid then .refused .commandBeforeReset else .next s.takePins := by
  simp [step, clockEdge, hr, hp]

theorem step_of_idle (hr : s.nextPins.rst = false) (hp : s.port = .idle) :
    step s = .next (if s.nextPins.cmdValid then s.takePins.accept s.nextPins.cmdWord else s.takePins) := by
  simp [step, clockEdge, hr, hp]

theorem step_of_exec_zero {w : CmdWord} (hr : s.nextPins.rst = false) (hp : s.port = .exec w 0) :
    step s = exec (decode w) s.takePins := by
  simp [step, clockEdge, hr, hp]

theorem step_of_exec_succ {w : CmdWord} {more : Nat} (hr : s.nextPins.rst = false) (hp : s.port = .exec w (more + 1)) :
    step s = .next { s.takePins with port := .exec w more } := by
  simp [step, clockEdge, hr, hp]

theorem step_of_resp {r : Response} (hr : s.nextPins.rst = false) (hp : s.port = .resp r) :
    step s = .next (if s.nextPins.rspReady then { s.takePins with port := .idle } else s.takePins) := by
  simp [step, clockEdge, hr, hp]

/-- Every edge takes one edge's pins off. -/
theorem step_inputs {t : State} (h : step s = .next t) : t.inputs = s.inputs.tail := by
  cases step_cases h with
  | runs w t _ _ hcase => exact hcase.port_inputs.2
  | _ => rfl

/-! ### The outputs (R260, R265) -/

theorem State.cmdReady_of_rst {p : Pins} (hr : p.rst = true) : s.cmdReady p = false := by
  simp [State.cmdReady, hr]

theorem State.rspValid_of_rst {p : Pins} (hr : p.rst = true) : s.rspValid p = false := by
  simp [State.rspValid, hr]

theorem State.cmdReady_of_idle {p : Pins} (hr : p.rst = false) (hp : s.port = .idle) : s.cmdReady p = true := by
  simp [State.cmdReady, hr, hp]

theorem State.cmdReady_of_ne_idle {p : Pins} (hp : s.port ≠ .idle) : s.cmdReady p = false := by
  simp [State.cmdReady, hp]

theorem State.rspValid_of_not_rst {p : Pins} (hr : p.rst = false) : s.rspValid p = s.port.offered.isSome := by
  simp [State.rspValid, hr]

end

/-- Settles O53: rst is looked at before the port. -/
theorem rstEdgeResetsEverything : Obligations.RstEdgeResetsEverything := by
  intro s p rest hin hr
  have hstep : step s = .next s.takePins.rstEdge := step_of_rst (by rwa [State.nextPins_of_inputs hin])
  rw [State.takePins_of_inputs hin] at hstep
  exact ⟨hstep, State.cmdReady_of_rst hr, State.rspValid_of_rst hr⟩

/-- Settles O54: the edge and the outputs in each port state. -/
theorem portMovesAsStated : Obligations.PortMovesAsStated := by
  intro s p rest hin hr
  have hpins := State.nextPins_of_inputs hin
  have htake := State.takePins_of_inputs hin
  have hr' : s.nextPins.rst = false := by rwa [hpins]
  have hvalid := s.rspValid_of_not_rst hr
  refine ⟨fun hp => ?_, fun w more hp => ?_, fun w more hp => ?_, fun r hp => ?_⟩
  · have hstep := step_of_idle hr' hp
    rw [hpins, htake] at hstep
    refine ⟨State.cmdReady_of_idle hr hp, by rw [hvalid, hp]; rfl, fun hv => ?_, fun hv => ?_⟩
    · simpa [hv] using hstep
    · rw [hstep, if_pos hv, State.accept, latency_port_inputs]
  · exact ⟨State.cmdReady_of_ne_idle (by simp [hp]), by rw [hvalid, hp]; rfl⟩
  · rw [step_of_exec_succ hr' hp, htake]
  · have hstep := step_of_resp hr' hp
    rw [hpins, htake] at hstep
    refine ⟨State.cmdReady_of_ne_idle (by simp [hp]), by rw [hvalid, hp]; rfl, by rw [State.rspWord, hp]; rfl,
      fun hv => ?_, fun hv => ?_⟩
    · simpa [hv] using hstep
    · rw [hstep, if_pos hv]

/-- Settles O60: power-on refuses a command, and rst resets there as everywhere. -/
theorem commandBeforeResetIsRefused : Obligations.CommandBeforeResetIsRefused := by
  intro s p rest hp hin
  refine ⟨fun hr hv => ?_, fun hr => (rstEdgeResetsEverything s p rest hin hr).1⟩
  have hpins := State.nextPins_of_inputs hin
  rw [step_of_powerUp (by rwa [hpins]) hp, hpins, if_pos hv]

/-- Settles O3: INIT clears the engine to the values of R36. -/
theorem initDiffersFromRstOnlyInThePort : Obligations.InitDiffersFromRstOnlyInThePort := fun s p hr =>
  ⟨_, _, step_of_rst (s := { s with inputs := p :: s.inputs }) hr, exec_init s, ⟨rfl, rfl, rfl, rfl, rfl, rfl, rfl, rfl⟩, rfl, rfl⟩

/-! ### The work of a FEED (R272) -/

/-- At most a block's worth of bytes, in any state and stopped by a set COR at any byte, compresses at most once: after the byte at
IDX 63 the others do not reach the end of the block again. -/
theorem absorb_h_cases (bs : List Byte) : ∀ {s : State}, bs.length ≤ 64 →
    (absorb bs s).h = s.h ∨ (64 ≤ s.idx.val + bs.length ∧
      (absorb bs s).h = compress s.h (s.buf.writeBytes s.idx.val (bs.take (64 - s.idx.val)))) := by
  induction bs with
  | nil => intro s _; exact .inl rfl
  | cons b bs ih =>
    intro s h64
    rw [List.length_cons] at h64 ⊢
    cases hc : s.cor with
    | true => exact .inl (congrArg State.h (absorb_of_cor hc _))
    | false =>
      have hidx := s.acceptByte_idx_val b
      have hrest := ih (s := s.acceptByte b) (by omega)
      rw [absorb_cons hc]
      rw [hidx, State.acceptByte_h, State.acceptByte_buf] at hrest
      by_cases h63 : s.idx.val = 63
      · right
        obtain hh | ⟨hfull, -⟩ := hrest
        · rw [hh, if_pos h63, h63]
          exact ⟨by omega, rfl⟩
        · omega
      · have hlt := s.idx.isLt
        rw [if_neg h63, Nat.mod_eq_of_lt (by omega)] at hrest
        obtain hh | ⟨hfull, hh⟩ := hrest
        · exact .inl hh
        · have htake : 64 - s.idx.val = 64 - (s.idx.val + 1) + 1 := by omega
          right
          rw [hh, htake, List.take_succ_cons, Memory.writeBytes_cons]
          exact ⟨by omega, rfl⟩

/-- Settles O13: a FEED only responds, or accepts at most four bytes. -/
theorem feedCompressesAtMostOnce : Obligations.FeedCompressesAtMostOnce := by
  intro s t n data h
  cases exec_case h with
  | responds st v _ => exact .inl rfl
  | feeds n data hi _ hn _ _ =>
    obtain ⟨rfl, rfl⟩ := Instr.feed.inj hi
    have hlen := feedOperand_length data hn
    have hcases := absorb_h_cases (feedOperand n data) (s := s) (by omega)
    rwa [hlen] at hcases
  | clears hi => cases hi
  | peeks hi _ _ => cases hi
  | copies hi _ _ => obtain hi | hi := hi <;> cases hi
  | finalizes hi _ _ => cases hi

/-! ### The latency (R265, R270) -/

/-- EXEC counts down and runs the command at its last edge. -/
theorem run_of_exec (w : CmdWord) (rest : List Pins) : ∀ (more : Nat) (ps : List Pins) {s : State}, s.port = .exec w more →
    ps.length = more + 1 → s.inputs = ps ++ rest → (∀ q ∈ ps, q.rst = false) →
    Host.Core.run Sys2Proof.core ps.length s = exec (decode w) { s with port := .exec w 0, inputs := rest } := by
  intro more
  induction more with
  | zero =>
    intro ps s hp hlen hin hrst
    obtain ⟨q, rfl⟩ := List.length_eq_one_iff.1 hlen
    have hin : s.inputs = q :: rest := hin
    have hr : s.nextPins.rst = false := by simpa [State.nextPins_of_inputs hin] using hrst
    obtain ⟨t, ht, -⟩ := exec_cases (decode w) { s with port := .exec w 0, inputs := rest }
    have hstep : step s = .next t := by rw [step_of_exec_zero hr hp, State.takePins_of_inputs hin, ← ht, ← hp]
    exact (core_run_next (k := 0) hstep).trans ht.symm
  | succ more ih =>
    intro ps s hp hlen hin hrst
    obtain ⟨q, qs, rfl⟩ := List.exists_cons_of_length_eq_add_one hlen
    obtain ⟨hq, hqs⟩ := List.forall_mem_cons.1 hrst
    have hr : s.nextPins.rst = false := by rwa [State.nextPins_of_inputs hin]
    have hstep := step_of_exec_succ hr hp
    rw [State.takePins_of_inputs hin] at hstep
    rw [List.length_cons, core_run_next hstep]
    exact ih qs rfl (by simpa using hlen) rfl hqs

/-- Settles O55: IDLE sets the counter to the latency less one, and EXEC counts it down. -/
theorem acceptedCommandCompletesInItsLatency : Obligations.AcceptedCommandCompletesInItsLatency := by
  intro s p ps rest hp hin hr hv hrst hlen
  have hpos : 0 < ps.length := hlen ▸ latency_pos s (decode p.cmdWord)
  have hpins := State.nextPins_of_inputs hin
  have hstep := step_of_idle (by rwa [hpins]) hp
  rw [hpins, if_pos hv, State.takePins_of_inputs hin] at hstep
  refine ⟨hpos, (core_run_next hstep).trans (run_of_exec p.cmdWord rest _ ps rfl ?_ rfl hrst)⟩
  rw [latency_port_inputs]
  omega

/-! ### The host's duty (R267) -/

/-- The duty at an edge that does not take the offer. -/
theorem holdsCommand_of_not_ready {now later : Pins} (h : holdsCommand false now later = true) (hv : now.cmdValid = true) :
    later.cmdValid = true ∧ later.cmdWord = now.cmdWord := by
  simpa [holdsCommand, hv] using h

/-- Settles O56: one edge delivers the response, and the next accepts the held word. -/
theorem heldCommandIsTakenAfterTheResponse : Obligations.HeldCommandIsTakenAfterTheResponse := by
  intro s p q rest r hp hin hr hr' hready hv hheld
  rw [State.cmdReady_of_ne_idle (by simp [hp])] at hheld
  obtain ⟨hv', hword⟩ := holdsCommand_of_not_ready hheld hv
  have hpins := State.nextPins_of_inputs hin
  have hdelivers := step_of_resp (by rwa [hpins]) hp
  rw [hpins, if_pos hready, State.takePins_of_inputs hin] at hdelivers
  have haccepts := step_of_idle (s := { s with port := .idle, inputs := q :: rest }) hr' rfl
  rw [State.nextPins_of_inputs (rest := rest) rfl, if_pos hv', hword] at haccepts
  exact ⟨_, _, (core_run_next hdelivers).trans (core_run_next haccepts), State.accept_port _ p.cmdWord,
    ⟨rfl, rfl, rfl, rfl, rfl, rfl, rfl, rfl⟩, rfl⟩

/-! ### What crosses the port at an edge -/

theorem portEvent_of_rst {s : State} {p : Pins} (hr : p.rst = true) : portEvent p s = some .reset := if_pos hr

theorem portEvent_of_ready {s : State} {p : Pins} (h : s.cmdReady p = true) (hv : p.cmdValid = true) :
    portEvent p s = some (.accepted p.cmdWord) := by
  cases hr : p.rst with
  | true => simp [State.cmdReady_of_rst hr] at h
  | false => simp [portEvent, hr, h, hv]

theorem portEvent_of_silent {s : State} {p : Pins} (hr : p.rst = false) (hc : s.cmdReady p = false ∨ p.cmdValid = false)
    (ho : s.port.offered = none) : portEvent p s = none := by
  obtain hc | hc := hc <;> simp [portEvent, hr, hc, ho]

theorem portEvent_of_resp {s : State} {p : Pins} {r : Response} (hr : p.rst = false) (hp : s.port = .resp r) :
    portEvent p s = if p.rspReady then some (.delivered r) else none := by
  simp [portEvent, hr, State.cmdReady, hp, Port.offered]

/-- An edge that is not ready accepts nothing. -/
theorem firstAccepted_of_not_ready {s : State} {p : Pins} (h : s.cmdReady p = false) (es : List PortEvent) :
    firstAccepted ((portEvent p s).toList ++ es) = firstAccepted es := by
  cases hr : p.rst with
  | true => rw [portEvent_of_rst hr]; rfl
  | false =>
    cases hp : s.port with
    | resp r => rw [portEvent_of_resp hr hp]; split <;> rfl
    | _ => rw [portEvent_of_silent hr (.inl h) (congrArg Port.offered hp)]; rfl

/-! ### What crosses the port over a run -/

theorem portTrace_succ {s t : State} (h : step s = .next t) (k : Nat) :
    portTrace (k + 1) s = (portEvent s.nextPins s).toList ++ portTrace k t := by
  simp only [portTrace, h]

/-- The trace stops where the machine does. -/
theorem portTrace_succ_cases (k : Nat) (s : State) : portTrace (k + 1) s = [] ∨ ∃ t, step s = .next t := by
  cases h : step s with
  | next t => exact .inr ⟨t, rfl⟩
  | fault r => cases r
  | refused r => left; simp only [portTrace, h]

theorem hostHolds_succ {s t : State} (h : step s = .next t) (k : Nat) : hostHolds (k + 1) s =
    (holdsCommand (s.cmdReady s.nextPins) s.nextPins s.takePins.nextPins && hostHolds k t) := by
  simp only [hostHolds, h]

/-- Settles O57: an edge that is ready takes the offer, and any other leaves it to be held at the next. -/
theorem offeredWordIsTheOneAccepted : Obligations.OfferedWordIsTheOneAccepted := by
  intro k
  induction k with
  | zero => intro s w _ _ hw; cases hw
  | succ k ih =>
    intro s w hv hholds hw
    obtain hnil | ⟨t, hstep⟩ := portTrace_succ_cases k s
    · rw [hnil] at hw
      cases hw
    · rw [portTrace_succ hstep] at hw
      rw [hostHolds_succ hstep, Bool.and_eq_true] at hholds
      obtain ⟨hheld, hlater⟩ := hholds
      have hnext : t.nextPins = s.takePins.nextPins := by
        rw [State.nextPins, State.nextPins, step_inputs hstep, State.takePins_inputs]
      rw [← hnext] at hheld
      cases hready : s.cmdReady s.nextPins with
      | true =>
        rw [portEvent_of_ready hready hv] at hw
        exact (Option.some.inj hw).symm
      | false =>
        rw [hready] at hheld
        obtain ⟨hv', hword⟩ := holdsCommand_of_not_ready hheld hv
        rw [firstAccepted_of_not_ready hready] at hw
        exact (ih t w hv' hlater hw).trans hword

/-- `StepCase` with what crosses the port at the edge: where a step that goes on leads, and its event. -/
inductive Edge (s : State) : State → Option PortEvent → Prop where
  | resets : Edge s s.takePins.rstEdge (some .reset)
  | waits : Edge s s.takePins none
  | accepts (w : CmdWord) : s.port = .idle → Edge s (s.takePins.accept w) (some (.accepted w))
  | counts (w : CmdWord) (more : Nat) : s.port = .exec w (more + 1) → Edge s { s.takePins with port := .exec w more } none
  | runs (w : CmdWord) (t : State) : s.port = .exec w 0 → exec (decode w) s.takePins = .next t → Edge s t none
  | delivers (r : Response) : s.port = .resp r → Edge s { s.takePins with port := .idle } (some (.delivered r))

/-- A step that goes on is one of the edges, with the event of `portEvent`. -/
theorem edge_of_step {s t : State} (h : step s = .next t) : Edge s t (portEvent s.nextPins s) := by
  cases hr : s.nextPins.rst with
  | true =>
    obtain rfl := Host.Outcome.next.inj ((step_of_rst hr).symm.trans h)
    rw [portEvent_of_rst hr]
    exact .resets
  | false =>
    cases hp : s.port with
    | powerUp =>
      rw [step_of_powerUp hr hp] at h
      cases hv : s.nextPins.cmdValid with
      | true => simp [hv] at h
      | false =>
        obtain rfl : s.takePins = t := by simpa [hv] using h
        rw [portEvent_of_silent hr (.inr hv) (congrArg Port.offered hp)]
        exact .waits
    | idle =>
      obtain rfl := Host.Outcome.next.inj ((step_of_idle hr hp).symm.trans h)
      cases hv : s.nextPins.cmdValid with
      | true =>
        rw [portEvent_of_ready (State.cmdReady_of_idle hr hp) hv]
        exact .accepts _ hp
      | false =>
        rw [portEvent_of_silent hr (.inr hv) (congrArg Port.offered hp)]
        exact .waits
    | exec w more =>
      rw [portEvent_of_silent hr (.inl (State.cmdReady_of_ne_idle (by simp [hp]))) (congrArg Port.offered hp)]
      cases more with
      | zero => exact .runs w t hp ((step_of_exec_zero hr hp).symm.trans h)
      | succ more =>
        obtain rfl := Host.Outcome.next.inj ((step_of_exec_succ hr hp).symm.trans h)
        exact .counts w more hp
    | resp r =>
      obtain rfl := Host.Outcome.next.inj ((step_of_resp hr hp).symm.trans h)
      rw [portEvent_of_resp hr hp]
      cases s.nextPins.rspReady with
      | true => exact .delivers r hp
      | false => exact .waits

/-- What holds of no event, and is carried from the events after an edge to those from it on, holds of the events of every run. -/
theorem portTrace_induction {P : State → List PortEvent → Prop} (nil : ∀ s, P s [])
    (edge : ∀ {s t ev es}, Edge s t ev → P t es → P s (ev.toList ++ es)) : ∀ k s, P s (portTrace k s) := by
  intro k
  induction k with
  | zero => exact nil
  | succ k ih =>
    intro s
    obtain hnil | ⟨t, hstep⟩ := portTrace_succ_cases k s
    · rw [hnil]
      exact nil s
    · rw [portTrace_succ hstep]
      exact edge (edge_of_step hstep) (ih t)

/-! ### The order of the events (R266) -/

/-- The command register, while it stands: the accepted command that has not run yet. -/
def Port.command : Port → Option CmdWord
  | .powerUp => none
  | .idle => none
  | .exec w _ => some w
  | .resp _ => none

/-- A command has been accepted and its response not been delivered: in EXEC and in RESP. -/
def Port.outstanding (p : Port) : Bool := p.command.isSome || p.offered.isSome

/-- Each edge's event is in order, by whether a command is outstanding before it and after it. -/
theorem Edge.inOrder {s t : State} {ev : Option PortEvent} {es : List PortEvent} (h : Edge s t ev)
    (ht : inOrder t.port.outstanding es = true) : inOrder s.port.outstanding (ev.toList ++ es) = true := by
  cases h with
  | resets => exact ht
  | waits => exact ht
  | accepts w hp => rw [hp]; exact ht
  | counts w more hp => rw [hp]; exact ht
  | runs w t hp hexec =>
    obtain ⟨⟨r, hr⟩, -⟩ := (exec_case hexec).port_inputs
    rw [hr] at ht
    rw [hp]
    exact ht
  | delivers r hp => rw [hp]; exact ht

/-- Settles O59: a command is outstanding exactly in EXEC and RESP. -/
theorem responsesComeOnePerCommandInOrder : Obligations.ResponsesComeOnePerCommandInOrder := by
  intro k s hs
  have horder := portTrace_induction (P := fun s es => inOrder s.port.outstanding es = true) (fun _ => rfl) Edge.inOrder k s
  obtain hp | hp := hs <;> rwa [hp] at horder

/-! ### One atomic transition per command (R267) -/

/-- `e` is the engine of `s` with the accepted command run already, and `due` the response that is still to be delivered. -/
inductive Tracks (s e : State) : Option Response → Prop where
  | resting : s.port.command = none → s.SameEngine e → Tracks s e s.port.offered
  | executing (w : CmdWord) (t : State) : s.port.command = some w → exec (decode w) s = .next t → t.SameEngine e →
      Tracks s e t.response

/-- The count of EXEC and the host's pins play no part. -/
theorem Tracks.port_inputs {s e : State} {due : Option Response} (h : Tracks s e due) (p : Port) (q : List Pins)
    (hc : p.command = s.port.command) (ho : p.offered = s.port.offered) : Tracks { s with port := p, inputs := q } e due := by
  cases h with
  | resting hnone hsame =>
    rw [← ho]
    exact .resting (hc.trans hnone) ((s.sameEngine_port_inputs p q).symm.trans hsame)
  | executing w t hw ht hsame =>
    exact .executing w { t with inputs := q } (hc.trans hw) (exec_port_inputs _ p q ht)
      ((t.sameEngine_port_inputs t.port q).symm.trans hsame)

theorem Tracks.of_command_eq_none {s e : State} {due : Option Response} (h : Tracks s e due) (hc : s.port.command = none) :
    s.SameEngine e ∧ due = s.port.offered := by
  cases h with
  | resting _ hsame => exact ⟨hsame, rfl⟩
  | executing w t hw _ _ => rw [hc] at hw; cases hw

theorem Tracks.of_command_eq_some {s e t : State} {due : Option Response} {w : CmdWord} (h : Tracks s e due)
    (hw : s.port.command = some w) (ht : exec (decode w) s = .next t) : t.SameEngine e ∧ due = t.response := by
  cases h with
  | resting hnone _ => rw [hw] at hnone; cases hnone
  | executing v u hv hu hsame =>
    obtain rfl := Option.some.inj (hv.symm.trans hw)
    obtain rfl := Host.Outcome.next.inj (hu.symm.trans ht)
    exact ⟨hsame, rfl⟩

theorem answersAtomically_accepted {e u : State} {w : CmdWord} (h : exec (decode w) e = .next u) (es : List PortEvent) :
    answersAtomically e none (.accepted w :: es) = answersAtomically u u.response es := by
  simp [answersAtomically, h]

theorem answersAtomically_delivered (e : State) (r : Response) (es : List PortEvent) :
    answersAtomically e (some r) (.delivered r :: es) = answersAtomically e none es := by
  simp [answersAtomically]

/-- The events are right answers of every atomic engine that the state tracks. -/
def Answered (s : State) (es : List PortEvent) : Prop := ∀ e due, Tracks s e due → answersAtomically e due es = true

/-- Each edge's event is the right answer, and what the state after it tracks is the atomic engine after the event. -/
theorem Edge.answered {s t : State} {ev : Option PortEvent} {es : List PortEvent} (h : Edge s t ev) (hes : Answered t es) :
    Answered s (ev.toList ++ es) := by
  intro e due htracks
  have htaken : Tracks s.takePins e due := htracks.port_inputs s.port s.inputs.tail rfl rfl
  cases h with
  | resets => exact hes State.reset none (.resting rfl (State.reset.sameEngine_port_inputs _ _).symm)
  | waits => exact hes e due htaken
  | accepts w hp =>
    obtain ⟨hsame, rfl⟩ := htaken.of_command_eq_none (congrArg Port.command hp)
    obtain ⟨u, hu, -⟩ := exec_cases (decode w) e
    obtain ⟨t, ht, -⟩ := exec_cases (decode w) (s.takePins.accept w)
    obtain ⟨htu, hport⟩ := exec_sameEngine (decode w) ((State.sameEngine_port_inputs _ _ _).symm.trans hsame) ht hu
    have hresponse : t.response = u.response := congrArg Port.offered hport
    rw [State.takePins_port, hp]
    refine (answersAtomically_accepted hu es).trans (hes u u.response ?_)
    rw [← hresponse]
    exact .executing w t rfl ht htu
  | counts w more hp =>
    exact hes e due (htaken.port_inputs (.exec w more) _ (congrArg Port.command hp).symm (congrArg Port.offered hp).symm)
  | runs w t hp hexec =>
    obtain ⟨hsame, rfl⟩ := htaken.of_command_eq_some (congrArg Port.command hp) hexec
    obtain ⟨⟨r, hr⟩, -⟩ := (exec_case hexec).port_inputs
    exact hes e t.response (.resting (congrArg Port.command hr) hsame)
  | delivers r hp =>
    obtain ⟨hsame, rfl⟩ := htaken.of_command_eq_none (congrArg Port.command hp)
    rw [State.takePins_port, hp]
    refine (answersAtomically_delivered e r es).trans (hes e none ?_)
    exact .resting rfl ((State.sameEngine_port_inputs _ _ _).symm.trans hsame)

/-- Settles O58: in IDLE the engine tracks itself with no response due, and every edge answers for the engine it tracks. -/
theorem portAnswersAsAtomicCommands : Obligations.PortAnswersAsAtomicCommands := by
  intro k s hp
  have htracks : Tracks s s s.port.offered := .resting (congrArg Port.command hp) (s.sameEngine_port_inputs s.port s.inputs)
  rw [hp] at htracks
  exact portTrace_induction (P := Answered) (fun _ _ _ _ => rfl) Edge.answered k s s none htracks

end Sys2Proof.Machine
end

section
/-! PROOFS. Terms that stand for no word (log entry 6), and the step as the run of the command register's word (log entries 2, 3). -/

namespace Sys2Proof.Machine

/-! ### Operands out of range -/

theorem wordAt_eq_none (x : Words5) : ∀ {k : Nat}, ¬ k ≤ 4 → wordAt x k = none
  | 0, h | 1, h | 2, h | 3, h | 4, h => absurd (by decide) h
  | _ + 5, _ => rfl

theorem lenHalf_eq_none (s : State) {k : BitVec 4} (h : ¬ k.toNat ≤ 1) : lenHalf s k = none := by
  obtain ⟨m, hm⟩ := Nat.exists_eq_add_of_le' (Nat.lt_of_not_le h)
  rw [lenHalf, hm]
  rfl

theorem exec_illegal (s : State) : exec .illegal s = .next s.rejectWord := rfl

/-- An index that selects no word of the digest is turned away, as a FEED count above 4 is (`exec_feed_of_large`). -/
theorem exec_rddig_of_large {k : BitVec 4} (h : ¬ k.toNat ≤ 4) (s : State) : exec (.rddig k) s = .next s.rejectWord := by
  rw [exec, execRddig, wordAt_eq_none s.dig h, State.answer]

theorem exec_rdlen_of_large {k : BitVec 4} (h : ¬ k.toNat ≤ 1) (s : State) : exec (.rdlen k) s = .next s.rejectWord := by
  rw [exec, execRdlen, lenHalf_eq_none s h, State.answer]

/-- Settles O29: only FEED, RDDIG and RDLEN have operands out of range, and each answers them as ILLEGAL does. -/
theorem operandOutOfRangeActsAsIllegal : Obligations.OperandOutOfRangeActsAsIllegal := by
  intro i s hi
  rw [exec_illegal]
  cases i with
  | feed n data => exact exec_feed_of_large (of_decide_eq_false hi) data s
  | rddig k => exact exec_rddig_of_large (of_decide_eq_false hi) s
  | rdlen k => exact exec_rdlen_of_large (of_decide_eq_false hi) s
  | nop | init | peek | final | rdstat | illegal => exact absurd hi (by decide)

/-! ### The word a step runs -/

/-- A placed word of the command's own width is in the command register whole, before a quiet edge. -/
theorem State.withFetchWord_toNat (s : State) (w : CmdWord) :
    s.withFetchWord 40 w.toNat = { s with port := .exec w 0, inputs := Pins.quiet :: s.inputs } := by
  rw [State.withFetchWord, Nat.mod_eq_of_lt w.isLt, BitVec.ofNat_toNat, BitVec.setWidth_eq]

/-- Settles O52: the last edge of EXEC runs the command, and a placed word is one edge away from it. -/
theorem stepRunsTheDecodedCommand : Obligations.StepRunsTheDecodedCommand := by
  refine ⟨fun s w hp hr => step_of_exec_zero hr hp, fun s w => ?_⟩
  rw [State.withFetchWord_toNat]
  exact step_of_exec_zero rfl rfl

end Sys2Proof.Machine
end
